-- ==== Sys2Proof/Word.lean ====
section
/-! DEFINITION. The two word types of the block: the octet and the 32-bit register word (00_scope.md R8). -/

namespace Sys2Proof

/-- An octet: a byte of a unit, of a frame, or of the Byte-Class Table (R8). -/
abbrev Byte := BitVec 8

/-- A register, a codepoint or a command word: 32 bits, unsigned (R8, R9). -/
abbrev Word := BitVec 32

end Sys2Proof
end

