-- ==== Sys2Proof/Config.lean ====
section
/-! DEFINITION. What the platform fixes: the base address of the register window (00_scope.md R8, 20_memory.md R39).
The spec leaves no other value open, so there is no free value here. -/

namespace Sys2Proof.Config

/-- Which 32-byte window of the host's address space the block occupies: an open parameter (decision D6, log 5). -/
opaque windowIndex : Nat

/-- The size of the register window in bytes (R39). -/
def windowBytes : Nat := 32

/-- `BASE`, 32-byte aligned by its form (R8, R39, D6). -/
def base : Nat := windowBytes * windowIndex

end Sys2Proof.Config
end

