-- ==== Sys2Proof/Syntax.lean ====
section
/-! DEFINITION. The commands of the block: one constructor per row of spec/opcode_table.json (30_encoding.md R54). -/

namespace Sys2Proof

/-- The ten commands. A word that encodes none of them is ILLEGAL; that is an outcome of the decoder (R57), not a command. -/
inductive Instr where
  /-- R100: no operation. -/
  | nop
  /-- R74: classify `ARG[7:0]` as a lead byte. -/
  | clsb
  /-- R75: classify `ARG` as a codepoint. -/
  | clsc
  /-- R84: encode `ARG` into UNIT. -/
  | enc
  /-- R85: decode UNIT. -/
  | dec
  /-- R86: load UNIT from `ARG` with the used-count of the 3-bit field N (R55, R59). -/
  | uload (n : BitVec 3)
  /-- R92: open a frame. -/
  | fstart
  /-- R94: feed one byte to the frame. -/
  | ffeed
  /-- R95: close the frame. -/
  | fend
  /-- R101: soft reset. -/
  | srst
deriving DecidableEq, Repr

/-- The command's mnemonic, as R54 spells it. -/
def Instr.mnemonic : Instr → String
  | .nop => "NOP"
  | .clsb => "CLSB"
  | .clsc => "CLSC"
  | .enc => "ENC"
  | .dec => "DEC"
  | .uload _ => "ULOAD"
  | .fstart => "FSTART"
  | .ffeed => "FFEED"
  | .fend => "FEND"
  | .srst => "SRST"

end Sys2Proof
end

