-- ==== Sys2Proof/WellFormed.lean ====
section
/-! DEFINITION. Which command terms the spec admits. The only check: ULOAD's count is 0 to 4 (30_encoding.md R55). -/

namespace Sys2Proof

/-- R55: "only N ∈ {0,1,2,3,4} is legal". -/
def uloadCountLegal (n : BitVec 3) : Bool := decide (n.toNat ≤ 4)

/-- The check of a whole term. -/
def Instr.wf : Instr → Bool
  | .uload n => uloadCountLegal n
  | .nop | .clsb | .clsc | .enc | .dec | .fstart | .ffeed | .fend | .srst => true

/-- The term is one of the fourteen commands the encoding can say (R57). -/
abbrev Instr.WellFormed (i : Instr) : Prop := i.wf = true

end Sys2Proof
end

