-- ==== Sys2Proof/Decode.lean ====
section
/-! DEFINITION. The command decoder, total on 32-bit words (30_encoding.md R53 to R57, R60), and the encoder, both
written from the format of R53 and the opcode map of R54. -/

namespace Sys2Proof

/-- OP = `w[3:0]` (R53). -/
def opField (w : Word) : BitVec 4 := w.extractLsb' 0 4

/-- N = `w[6:4]` (R53). -/
def countField (w : Word) : BitVec 3 := w.extractLsb' 4 3

/-- RSV = `w[31:7]` (R53). -/
def reservedField (w : Word) : BitVec 25 := w.extractLsb' 7 25

/-- The opcode map of R54 for the commands without a count. -/
def plainCommand (op : BitVec 4) : Option Instr :=
  match op.toNat with
  | 0x0 => some .nop
  | 0x1 => some .clsb
  | 0x2 => some .clsc
  | 0x3 => some .enc
  | 0x4 => some .dec
  | 0x6 => some .fstart
  | 0x7 => some .ffeed
  | 0x8 => some .fend
  | 0xF => some .srst
  | _ => none

/-- `decode_cmd` of R57; `none` is ILLEGAL. -/
def decodeCmd (w : Word) : Option Instr :=
  if reservedField w ≠ 0 then none
  else if opField w = 0x5 then
    if (countField w).toNat ≤ 4 then some (.uload (countField w)) else none
  else if countField w ≠ 0 then none
  else plainCommand (opField w)

/-- The word of a table row whose `nbits` bits are `w`: a command is exactly one 32-bit word (R62), so a wider one is no command. -/
def decodeTableWord (nbits w : Nat) : Option Instr :=
  if nbits ≤ 32 ∧ w < 2 ^ 32 then decodeCmd (BitVec.ofNat 32 w) else none

/-- The word with the given fields and RSV = 0 (R53's bit diagram). -/
def packFields (n : BitVec 3) (op : BitVec 4) : Word := (0#25 ++ n) ++ op

/-- The word of a command: opcode by R54, N for ULOAD only (R55). -/
def encode : Instr → Word
  | .nop => packFields 0 0x0
  | .clsb => packFields 0 0x1
  | .clsc => packFields 0 0x2
  | .enc => packFields 0 0x3
  | .dec => packFields 0 0x4
  | .uload n => packFields n 0x5
  | .fstart => packFields 0 0x6
  | .ffeed => packFields 0 0x7
  | .fend => packFields 0 0x8
  | .srst => packFields 0 0xF

end Sys2Proof
end

