-- ==== Sys2Proof/Machine/State.lean ====
section
/-! DEFINITION. The state of the block (10_state.md R36), the host's side of the interface, the reset state (R37), and
the reasons a step can stop. -/

namespace Sys2Proof.Machine

/-- STATUS.CODE (10_state.md R24, 60_exceptions.md R107). Values 5 to 7 are never written, so they are not values. -/
inductive Code where
  | ok
  | invalid
  | truncated
  | illegal
  | sequence
deriving DecidableEq, Repr

/-- STATUS.FSTATE (R27). -/
inductive FrameState where
  | idle
  | active
  | done
  | error
deriving DecidableEq, Repr

/-- The four octets of a Multibyte Unit, `bytes[0]` (the lead byte) to `bytes[3]` (R29, R32, 41_codec.md R77). -/
structure UnitBytes where
  b0 : Byte
  b1 : Byte
  b2 : Byte
  b3 : Byte
deriving DecidableEq, Repr

/-- A Multibyte Unit {bytes, used: 0 to 4} (41_codec.md R77). -/
structure MultibyteUnit where
  bytes : UnitBytes
  used : Fin 5
deriving DecidableEq, Repr

/-- FUNIT: the unit the frame assembler is filling, with the length its lead byte announced (10_state.md R32). -/
structure FrameUnit where
  bytes : UnitBytes
  used : Fin 4
  len : Fin 5
deriving DecidableEq, Repr

/-- The eight host-visible registers (R14). -/
inductive Reg where
  | ctrl
  | arg
  | cmd
  | result
  | status
  | unitBytes
  | unitUsed
  | fcount
deriving DecidableEq, Repr

/-- What the outside does to the block (70_reset_and_hazards.md R135). An access carries its byte offset from BASE
(20_memory.md R39) and its width in bits, so that the accesses R42 leaves undefined can be written down too. -/
inductive HostEvent where
  /-- A register read (R41). -/
  | read (off : Int) (width : Nat)
  /-- A register write (R41) of the value `v`. -/
  | write (off : Int) (width : Nat) (v : Word)
  /-- The platform asserts the reset input (R122). -/
  | reset
deriving DecidableEq, Repr

/-- The block's state, field by field the record of R36, and after it the host's side of the interface. -/
structure State where
  /-- CTRL[0], NULTERM (R19). -/
  nulterm : Bool
  /-- ARG (R20). -/
  arg : Word
  /-- RESULT (R22). -/
  result : Word
  /-- STATUS.CODE (R24). -/
  code : Code
  /-- STATUS.CPV (R25). -/
  cpv : Bool
  /-- STATUS.STICKY (R26). -/
  sticky : Bool
  /-- STATUS.FSTATE (R27). -/
  fstate : FrameState
  /-- UNIT, the host unit buffer (R29, R30). -/
  unit : MultibyteUnit
  /-- FUNIT, the frame unit buffer (R32). -/
  funit : FrameUnit
  /-- FCOUNT (R33). -/
  fcount : Word
  /-- The model's own field: what reaches the block next, first first. DESIGN CHOICE (log 1). -/
  pending : List HostEvent
  /-- The model's own field: the values the host's reads have returned, oldest first. DESIGN CHOICE (log 3). -/
  returned : List Word
deriving DecidableEq, Repr

/-- The block has no fault: no error traps (60_exceptions.md R113) and no step faults or hangs (43_control.md R106).
DEDUCED, safe (log 11). -/
inductive Fault where
deriving DecidableEq, Repr

/-- Why a step is refused. -/
inductive Refusal where
  /-- A command whose meaning is not written. Raised by `exec`'s rejected arms; there are none. Safe. -/
  | notModelled (mnemonic : String)
  /-- Raised by a host access that is not 32 bits wide (20_memory.md R42). Unsafe for a host that issues one (log 4). -/
  | accessWidth
  /-- Raised by a 32-bit host access outside the 32-byte window (R42). Unsafe for a host that issues one (log 4). -/
  | accessOutsideWindow
  /-- Raised by a 32-bit host access inside the window whose offset is not a multiple of 4 (R42). Unsafe for a host
  that issues one (log 4). -/
  | accessMisaligned
deriving DecidableEq, Repr

/-- Four zero octets (R37). -/
def UnitBytes.zero : UnitBytes := ⟨0, 0, 0, 0⟩

/-- The empty unit: used 0, bytes 0 (R31, R37). -/
def MultibyteUnit.empty : MultibyteUnit := ⟨.zero, 0⟩

/-- The empty frame unit: no unit pending (R32, R37). -/
def FrameUnit.empty : FrameUnit := ⟨.zero, 0, 0⟩

/-- The state right after reset (R37, 70_reset_and_hazards.md R123, R136); nothing has reached the block yet and no read
has returned a value (logs 1 and 3). -/
def State.reset : State where
  nulterm := false
  arg := 0
  result := 0
  code := .ok
  cpv := false
  sticky := false
  fstate := .idle
  unit := .empty
  funit := .empty
  fcount := 0
  pending := []
  returned := []

end Sys2Proof.Machine
end

