-- ==== Sys2Proof/Machine/Flags.lean ====
section
/-! DEFINITION. STATUS: the numbers of its fields and the word the host reads (10_state.md R23, R24, R27, R28). -/

namespace Sys2Proof.Machine

/-- STATUS.CODE as its 3-bit number (R24, 60_exceptions.md R107). -/
def Code.bits : Code → BitVec 3
  | .ok => 0
  | .invalid => 1
  | .truncated => 2
  | .illegal => 3
  | .sequence => 4

/-- STATUS.FSTATE as its 2-bit number (R27). -/
def FrameState.bits : FrameState → BitVec 2
  | .idle => 0
  | .active => 1
  | .done => 2
  | .error => 3

/-- STATUS.FUSED = FUNIT.used (R28). -/
def fusedBits (s : State) : BitVec 3 := BitVec.ofNat 3 s.funit.used.val

/-- STATUS.FLEN = FUNIT.len (R28). -/
def flenBits (s : State) : BitVec 3 := BitVec.ofNat 3 s.funit.len.val

/-- The 32-bit STATUS register, high field first: reserved, FLEN, FUSED, FSTATE, STICKY, CPV, CODE (R23). -/
def statusWord (s : State) : Word :=
  0#19 ++ flenBits s ++ fusedBits s ++ s.fstate.bits ++ BitVec.ofBool s.sticky ++ BitVec.ofBool s.cpv ++ s.code.bits

end Sys2Proof.Machine
end

