-- ==== Sys2Proof/Machine/Operands.lean ====
section
/-! DEFINITION. Where each command's operand comes from (30_encoding.md R58, 20_memory.md R46). -/

namespace Sys2Proof.Machine

/-- The byte operand of CLSB and FFEED: `ARG[7:0]`; `ARG[31:8]` is ignored (R46, R58). -/
def byteOperand (s : State) : Byte := s.arg.extractLsb' 0 8

/-- The codepoint operand of CLSC and ENC: the whole of ARG (R46, R58). -/
def codepointOperand (s : State) : Word := s.arg

/-- Byte i of ULOAD's operand: `ARG[8i+7:8i]` (R46, R58). -/
def argByte (s : State) (i : Nat) : Byte := s.arg.extractLsb' (8 * i) 8

/-- The unit operand of DEC: UNIT, ARG not read (R58). -/
def unitOperand (s : State) : MultibyteUnit := s.unit

/-- A byte widened to 32 bits with zeros, `zext_32` (00_scope.md R9). -/
def zext32 (b : Byte) : Word := b.setWidth 32

end Sys2Proof.Machine
end

