-- ==== Sys2Proof/Machine/Ops.lean ====
section
/-! DEFINITION. The named operations every meaning is written over: bytes of a unit, the writes of one piece of state,
the three epilogues, reset, and the register window. -/

namespace Sys2Proof.Machine

/-- `bytes[i]`; no rule reads an index above 3. -/
def UnitBytes.get (u : UnitBytes) (i : Nat) : Byte :=
  match i with
  | 0 => u.b0
  | 1 => u.b1
  | 2 => u.b2
  | 3 => u.b3
  | _ => 0

/-- `bytes[i] <- b`; no rule writes an index above 3. -/
def UnitBytes.set (u : UnitBytes) (i : Nat) (b : Byte) : UnitBytes :=
  match i with
  | 0 => { u with b0 := b }
  | 1 => { u with b1 := b }
  | 2 => { u with b2 := b }
  | 3 => { u with b3 := b }
  | _ => u

/-- The four octets given by their index. -/
def UnitBytes.ofFn (f : Nat → Byte) : UnitBytes := ⟨f 0, f 1, f 2, f 3⟩

/-- UNIT_BYTES packing: `bytes[i]` at bits `[8i+7:8i]` (10_state.md R29, 20_memory.md R45). -/
def UnitBytes.pack (u : UnitBytes) : Word := u.b3 ++ u.b2 ++ u.b1 ++ u.b0

/-- `CTRL.NULTERM <- b`. -/
def State.setNulterm (b : Bool) (s : State) : State := { s with nulterm := b }

/-- `ARG <- v`. -/
def State.setArg (v : Word) (s : State) : State := { s with arg := v }

/-- `UNIT <- u`, bytes and used. -/
def State.setUnit (u : MultibyteUnit) (s : State) : State := { s with unit := u }

/-- `FUNIT <- f`, bytes, used and len. -/
def State.setFunit (f : FrameUnit) (s : State) : State := { s with funit := f }

/-- `FSTATE <- x`. -/
def State.setFstate (x : FrameState) (s : State) : State := { s with fstate := x }

/-- `FCOUNT <- v`. -/
def State.setFcount (v : Word) (s : State) : State := { s with fcount := v }

/-- The block hands a value to the host's read. -/
def State.handOut (v : Word) (s : State) : State := { s with returned := s.returned ++ [v] }

/-- `finish(r)`: the success epilogue (60_exceptions.md R108). -/
def finish (r : Word) (s : State) : State := { s with result := r, code := .ok, cpv := false }

/-- `emit(c)`: the success epilogue of an FFEED that completed a unit (R108). -/
def emit (c : Word) (s : State) : State := { s with result := c, code := .ok, cpv := true }

/-- RESULT after a failure: the 32-bit form of the source's -1 (R109). -/
def sentinel : Word := 0xFFFFFFFF

/-- `raise C`: the failure epilogue (R109). It is the block's whole error model: no error transfers control, saves
state or changes a mode (R113), and there is no return from one (R114). -/
def raise (c : Code) (s : State) : State := { s with result := sentinel, code := c, cpv := false, sticky := true }

/-- Every piece of the block's state to its reset value (10_state.md R37, 70_reset_and_hazards.md R122, R123). What the
host still has to send and what it has read are the host's, not the block's. -/
def resetBlock (s : State) : State := { State.reset with pending := s.pending, returned := s.returned }

/-- The byte offset of a register (R14). -/
def Reg.offset : Reg → Nat
  | .ctrl => 0x00
  | .arg => 0x04
  | .cmd => 0x08
  | .result => 0x0C
  | .status => 0x10
  | .unitBytes => 0x14
  | .unitUsed => 0x18
  | .fcount => 0x1C

/-- The register at a byte offset (R14); `none` for the other offsets. -/
def Reg.atOffset (n : Nat) : Option Reg :=
  match n with
  | 0x00 => some .ctrl
  | 0x04 => some .arg
  | 0x08 => some .cmd
  | 0x0C => some .result
  | 0x10 => some .status
  | 0x14 => some .unitBytes
  | 0x18 => some .unitUsed
  | 0x1C => some .fcount
  | _ => none

/-- The register an access reaches, or why it reaches none (20_memory.md R41, R42). The order of the tests decides only
the name of the refusal. DESIGN CHOICE (log 4). -/
def accessed (off : Int) (width : Nat) : Except Refusal Reg :=
  if width ≠ 32 then .error .accessWidth
  else if off < 0 ∨ (Config.windowBytes : Int) ≤ off then .error .accessOutsideWindow
  else match Reg.atOffset off.toNat with
    | some r => .ok r
    | none => .error .accessMisaligned

/-- The offset the block decodes: `off = addr - BASE` (R39). -/
def windowOffset (addr : Nat) : Int := (addr : Int) - (Config.base : Int)

/-- A 32-bit read at an address of the host's address space (R39, R41). -/
def readAt (addr : Nat) : HostEvent := .read (windowOffset addr) 32

/-- A 32-bit write at an address of the host's address space (R39, R41). -/
def writeAt (addr : Nat) (v : Word) : HostEvent := .write (windowOffset addr) 32 v

/-- `HostRead` of a register's address (R41). -/
def hostRead (r : Reg) : HostEvent := .read r.offset 32

/-- `HostWrite` of a register's address (R41). -/
def hostWrite (r : Reg) (v : Word) : HostEvent := .write r.offset 32 v

/-- The value a read returns (20_memory.md R43): reserved bits 0, CMD 0 (10_state.md R19 to R33). -/
def readReg (s : State) : Reg → Word
  | .ctrl => 0#31 ++ BitVec.ofBool s.nulterm
  | .arg => s.arg
  | .cmd => 0
  | .result => s.result
  | .status => statusWord s
  | .unitBytes => s.unit.bytes.pack
  | .unitUsed => BitVec.ofNat 32 s.unit.used.val
  | .fcount => s.fcount

/-- A write to any register but CMD (43_control.md R103, R104, R105); CMD's write runs a command (R106) and is not this. -/
def writeReg (r : Reg) (v : Word) (s : State) : State :=
  match r with
  | .ctrl => s.setNulterm (v.getLsbD 0)
  | .arg => s.setArg v
  | .cmd | .result | .status | .unitBytes | .unitUsed | .fcount => s

end Sys2Proof.Machine
end

