-- ==== Sys2Proof/Machine/Control.lean ====
section
/-! DEFINITION. The control commands NOP and SRST and the ILLEGAL outcome (43_control.md). -/

namespace Sys2Proof.Machine

/-- NOP (R100): no state is read or written. -/
def execNop (s : State) : Host.Outcome State Fault Refusal := .next s

/-- SRST (R101): every piece of the block's state to its reset value, as a hardware reset does. -/
def execSrst (s : State) : Host.Outcome State Fault Refusal := .next (resetBlock s)

/-- The outcome of a word that encodes no command (R102). -/
def illegalWord (s : State) : Host.Outcome State Fault Refusal := .next (raise .illegal s)

end Sys2Proof.Machine
end

