-- ==== Sys2Proof/Machine/Table.lean ====
section
/-! DEFINITION. The Byte-Class Table (10_state.md R15, R16), a constant of the block, and sequence lengths (40_classify.md R73). -/

namespace Sys2Proof.Machine

/-- A sequence length. R73: the codomain of the classifiers is {1,2,3,4} | Invalid, `Option Length` here. -/
inductive Length where
  | one
  | two
  | three
  | four
deriving DecidableEq, Repr

/-- One row of the table (R16). -/
structure Row where
  payloadMask : Byte
  leadPattern : Byte
  rangeStart : Word
  rangeEnd : Word
  payloadBits : Nat
deriving DecidableEq, Repr

/-- `ROW[i]` of R16. -/
def row (i : Fin 5) : Row :=
  match i with
  | 0 => ⟨0x3F, 0x80, 0x0, 0x0, 6⟩
  | 1 => ⟨0x7F, 0x00, 0x0, 0x7F, 7⟩
  | 2 => ⟨0x1F, 0xC0, 0x80, 0x7FF, 5⟩
  | 3 => ⟨0x0F, 0xE0, 0x800, 0xFFFF, 4⟩
  | 4 => ⟨0x07, 0xF0, 0x10000, 0x10FFFF, 3⟩

/-- The length as a count of bytes. -/
def Length.toNat : Length → Nat
  | .one => 1
  | .two => 2
  | .three => 3
  | .four => 4

/-- The index of the length's row, and the used-count of a unit of that length. -/
def Length.toFin : Length → Fin 5
  | .one => 1
  | .two => 2
  | .three => 3
  | .four => 4

/-- R73's defensive check of a row's implied length: less than 1 or more than 4 is Invalid. -/
def Length.ofIndex? (i : Nat) : Option Length :=
  match i with
  | 1 => some .one
  | 2 => some .two
  | 3 => some .three
  | 4 => some .four
  | _ => none

/-- `ROW[L]`. -/
def leadRow (l : Length) : Row := row l.toFin

/-- `ROW[0]`, the continuation row. -/
def continuationRow : Row := row 0

end Sys2Proof.Machine
end

