-- ==== Sys2Proof/Machine/Classify.lean ====
section
/-! DEFINITION. The two length classifiers and the commands CLSB and CLSC (40_classify.md). -/

namespace Sys2Proof.Machine

/-- A row matches when the byte with its payload bits masked off equals the row's lead pattern (R69). -/
def rowMatches (b : Byte) (i : Fin 5) : Bool := (b &&& ~~~(row i).payloadMask) == (row i).leadPattern

/-- `bsl`: rows 0 to 4 in table order, the implied length of the first that matches (R69). -/
def bsl (b : Byte) : Option Length :=
  ([0, 1, 2, 3, 4].find? (rowMatches b)).bind fun i => Length.ofIndex? i.val

/-- The codepoint lies in the row's range, both ends included (R71). -/
def inRange (c : Word) (i : Fin 5) : Bool :=
  decide ((row i).rangeStart.toNat ≤ c.toNat) && decide (c.toNat ≤ (row i).rangeEnd.toNat)

/-- `csl`: rows 1 to 4 only (R71). -/
def csl (c : Word) : Option Length :=
  ([1, 2, 3, 4].find? (inRange c)).bind fun i => Length.ofIndex? i.val

/-- The epilogue of a classifier command: a length, or INVALID (R74, R75). -/
def finishLength (l : Option Length) (s : State) : State :=
  match l with
  | none => raise .invalid s
  | some l => finish (BitVec.ofNat 32 l.toNat) s

/-- CLSB (R74). -/
def execClsb (s : State) : Host.Outcome State Fault Refusal := .next (finishLength (bsl (byteOperand s)) s)

/-- CLSC (R75). -/
def execClsc (s : State) : Host.Outcome State Fault Refusal := .next (finishLength (csl (codepointOperand s)) s)

end Sys2Proof.Machine
end

