-- ==== Sys2Proof/Machine/Codec.lean ====
section
/-! DEFINITION. The bit-packing engine and the commands ENC, DEC and ULOAD (41_codec.md). -/

namespace Sys2Proof.Machine

/-- What `decode` returns (R80). -/
inductive Decoded where
  | value (c : Word)
  | invalid
  | truncated
deriving DecidableEq, Repr

/-- The lead byte of a length-l encoding (R78, step 2). -/
def encodeLead (c : Word) (l : Length) : Byte :=
  ((c >>> (6 * (l.toNat - 1))).setWidth 8 &&& (leadRow l).payloadMask) ||| (leadRow l).leadPattern

/-- Byte k ≥ 1 of a length-l encoding (R78, step 3). -/
def encodeContinuation (c : Word) (l : Length) (k : Nat) : Byte :=
  ((c >>> (6 * (l.toNat - 1 - k))).setWidth 8 &&& continuationRow.payloadMask) ||| continuationRow.leadPattern

/-- Byte k of a length-l encoding; 0 past the length (R78, decision D15). -/
def encodeByte (c : Word) (l : Length) (k : Nat) : Byte :=
  if k = 0 then encodeLead c l else if k < l.toNat then encodeContinuation c l k else 0

/-- `encode` (R78): the empty unit is the failure signal. -/
def encodeUnit (c : Word) : MultibyteUnit :=
  match csl c with
  | none => .empty
  | some l => ⟨.ofFn (encodeByte c l), l.toFin⟩

/-- The payload of the lead byte, in position (R80, step 2). -/
def leadPayload (u : UnitBytes) (l : Length) : Word :=
  zext32 (u.get 0 &&& (leadRow l).payloadMask) <<< (6 * (l.toNat - 1))

/-- The low 6 bits of byte k, in position (R80, step 3); the top two bits are not checked. -/
def continuationPayload (u : UnitBytes) (l : Length) (k : Nat) : Word :=
  zext32 (u.get k &&& continuationRow.payloadMask) <<< (6 * (l.toNat - 1 - k))

/-- The value assembled from a unit of length l (R80, steps 2 to 4). -/
def assemblePayload (u : UnitBytes) (l : Length) : Word :=
  (List.range' 1 (l.toNat - 1)).foldl (fun c k => c ||| continuationPayload u l k) (leadPayload u l)

/-- `decode` (R80), its checks in the order of 60_exceptions.md R111. -/
def decodeUnit (u : MultibyteUnit) : Decoded :=
  if u.used.val = 0 then .invalid
  else match bsl (u.bytes.get 0) with
    | none => .invalid
    | some l =>
      if u.used.val < l.toNat then .truncated
      else if l.toNat < u.used.val then .invalid
      else .value (assemblePayload u.bytes l)

/-- ENC's epilogue: an empty unit is the failure signal (R84). -/
def finishEncoded (u : MultibyteUnit) (s : State) : State :=
  if u.used.val = 0 then raise .invalid s else finish (BitVec.ofNat 32 u.used.val) s

/-- ENC (R84): UNIT is written on every path. -/
def execEnc (s : State) : Host.Outcome State Fault Refusal :=
  .next (finishEncoded (encodeUnit (codepointOperand s)) (s.setUnit (encodeUnit (codepointOperand s))))

/-- DEC's epilogue (R85). -/
def finishDecoded (d : Decoded) (s : State) : State :=
  match d with
  | .invalid => raise .invalid s
  | .truncated => raise .truncated s
  | .value c => finish c s

/-- DEC (R85). -/
def execDec (s : State) : Host.Outcome State Fault Refusal := .next (finishDecoded (decodeUnit (unitOperand s)) s)

/-- The unit ULOAD builds: the first n bytes of ARG, zeros after them (R86). -/
def loadedUnit (s : State) (n : Fin 5) : MultibyteUnit :=
  ⟨.ofFn fun i => if i < n.val then argByte s i else 0, n⟩

/-- ULOAD's effect (R86). A count above 4 is an ILLEGAL word and never decodes to this command (R55); such a term is given
the ILLEGAL outcome of R102 all the same. DEDUCED (log 8). -/
def loadUnit (n : BitVec 3) (s : State) : State :=
  if h : n.toNat < 5 then finish (BitVec.ofNat 32 n.toNat) (s.setUnit (loadedUnit s ⟨n.toNat, h⟩)) else raise .illegal s

/-- ULOAD (R86). -/
def execUload (n : BitVec 3) (s : State) : Host.Outcome State Fault Refusal := .next (loadUnit n s)

end Sys2Proof.Machine
end

