-- ==== Sys2Proof/Machine/Frame.lean ====
section
/-! DEFINITION. The frame assembler: FSTART, FFEED and FEND (42_frame.md). -/

namespace Sys2Proof.Machine

/-- FSTART (R92). -/
def execFstart (s : State) : Host.Outcome State Fault Refusal :=
  .next (finish 0 (((s.setFunit .empty).setFcount 0).setFstate .active))

/-- `frame_end()` (R93): what FEND and the NULTERM terminator run. FUNIT and FCOUNT stay. -/
def frameEnd (s : State) : State :=
  if s.funit.used.val ≠ 0 then raise .truncated (s.setFstate .error)
  else finish s.fcount (s.setFstate .done)

/-- A completed unit is decoded, counted and emitted (R94). Its decode cannot fail in a state of 10_state.md R32 (R94, R97);
in any other state the command ends with the decode's own code and FCOUNT does not count. DESIGN CHOICE (log 7). -/
def emitDecoded (u : MultibyteUnit) (s : State) : State :=
  match decodeUnit u with
  | .value c => emit c (s.setFcount (s.fcount + 1))
  | .invalid => raise .invalid s
  | .truncated => raise .truncated s

/-- FFEED of a byte that starts a unit (R94): classified, and emitted at once if it is a whole unit. -/
def feedLead (b : Byte) (s : State) : State :=
  match bsl b with
  | none => raise .invalid (s.setFstate .error)
  | some .one => emitDecoded ⟨⟨b, 0, 0, 0⟩, 1⟩ s
  | some l => finish 0 (s.setFunit ⟨s.funit.bytes.set 0 b, 1, l.toFin⟩)

/-- FUNIT.bytes with the fed byte at its place (R94): taken whatever it is (R97). -/
def filledBytes (b : Byte) (s : State) : UnitBytes := s.funit.bytes.set s.funit.used.val b

/-- FFEED of a byte inside a unit (R94); `used + 1` bytes are then held. FUNIT.used is 2 bits (10_state.md R36), which holds
every count below the announced length (log 7). -/
def feedContinuation (b : Byte) (s : State) : State :=
  if s.funit.used.val + 1 = s.funit.len.val then emitDecoded ⟨filledBytes b s, s.funit.used.succ⟩ (s.setFunit .empty)
  else finish 0 (s.setFunit ⟨filledBytes b s, Fin.ofNat 4 (s.funit.used.val + 1), s.funit.len⟩)

/-- FFEED's tests, in the order of R94 and 60_exceptions.md R111. -/
def feed (b : Byte) (s : State) : State :=
  if s.fstate ≠ .active then raise .sequence s
  else if s.nulterm = true ∧ b = 0 then frameEnd s
  else if s.funit.used.val = 0 then feedLead b s
  else feedContinuation b s

/-- FFEED (R94). -/
def execFfeed (s : State) : Host.Outcome State Fault Refusal := .next (feed (byteOperand s) s)

/-- FEND's tests, in the order of R95. -/
def closeFrame (s : State) : State := if s.fstate ≠ .active then raise .sequence s else frameEnd s

/-- FEND (R95). -/
def execFend (s : State) : Host.Outcome State Fault Refusal := .next (closeFrame s)

end Sys2Proof.Machine
end

