-- ==== Sys2Proof/Machine/Dispatch.lean ====
section
/-! DEFINITION. The dispatch of 43_control.md R106: one arm per command. -/

namespace Sys2Proof.Machine

def exec (i : Instr) (s : State) : Host.Outcome State Fault Refusal :=
  match i with
  | .nop => Sys2Proof.Machine.execNop s
  | .clsb => Sys2Proof.Machine.execClsb s
  | .clsc => Sys2Proof.Machine.execClsc s
  | .enc => Sys2Proof.Machine.execEnc s
  | .dec => Sys2Proof.Machine.execDec s
  | .uload n => Sys2Proof.Machine.execUload n s
  | .fstart => Sys2Proof.Machine.execFstart s
  | .ffeed => Sys2Proof.Machine.execFfeed s
  | .fend => Sys2Proof.Machine.execFend s
  | .srst => Sys2Proof.Machine.execSrst s

end Sys2Proof.Machine
end

