-- ==== Sys2Proof/Machine/HostPort.lean ====
section
/-! DEFINITION. What each thing the host does makes the block do: reads (20_memory.md R43), writes (R44, 43_control.md R103
to R106) and the reset input (70_reset_and_hazards.md R122). -/

namespace Sys2Proof.Machine

/-- `step_cmd(w)` (R106): decode the word written to CMD, then perform the command's rule. -/
def stepCmd (w : Word) (s : State) : Host.Outcome State Fault Refusal :=
  match decodeCmd w with
  | some i => exec i s
  | none => illegalWord s

/-- A register write (R44): CMD runs a command, every other register is `writeReg`'s. -/
def performWrite (r : Reg) (v : Word) (s : State) : Host.Outcome State Fault Refusal :=
  if r = .cmd then stepCmd v s else .next (writeReg r v s)

/-- One host event performed to its end before the next takes effect (20_memory.md R47, R48; 60_exceptions.md R112). -/
def perform (e : HostEvent) (s : State) : Host.Outcome State Fault Refusal :=
  match e with
  | .read off width =>
    match accessed off width with
    | .ok r => .next (s.handOut (readReg s r))
    | .error why => .refused why
  | .write off width v =>
    match accessed off width with
    | .ok r => performWrite r v s
    | .error why => .refused why
  | .reset => .next (resetBlock s)

/-- A sequence of host events, performed in order up to the first that is refused (R48, R49). -/
def performAll : List HostEvent → State → Host.Outcome State Fault Refusal
  | [], s => .next s
  | e :: es, s =>
    match perform e s with
    | .next t => performAll es t
    | .fault r => .fault r
    | .refused r => .refused r

/-- Take the first pending event and perform it. With none pending the block is idle and keeps every state (60_exceptions.md
R121). DESIGN CHOICE (log 2). -/
def performNext (s : State) : Host.Outcome State Fault Refusal :=
  match s.pending with
  | [] => .next s
  | e :: rest => perform e { s with pending := rest }

/-- The CMD write of a word, as the next event to reach the block (log 10). -/
def sendCommand (w : Word) (s : State) : State := { s with pending := hostWrite .cmd w :: s.pending }

end Sys2Proof.Machine
end

