-- ==== Sys2Proof/Machine/Step.lean ====
section
/-! DEFINITION. One step of the machine: the next host event (00_scope.md R6, R7; 20_memory.md R47, R48). -/

namespace Sys2Proof.Machine

def step (s : State) : Host.Outcome State Fault Refusal := performNext s

/-- The block fetches nothing (20_memory.md R51): a command arrives as a host write to CMD. The word's CMD write is put
before everything else that is pending, so the next step runs it (log 10). A command is 32 bits (R62); bits above are dropped. -/
def State.withFetchWord (s : State) (nbits w : Nat) : State := sendCommand (BitVec.ofNat 32 (w % 2 ^ nbits)) s

end Sys2Proof.Machine
end

