-- ==== Sys2Proof/Machine/Program.lean ====
section
/-! DEFINITION. Host programs: their lines, pseudo-commands, assembly, disassembly and printed text (30_encoding.md R63 to R65). -/

namespace Sys2Proof.Machine

/-- One line of a host program (R63). `command (.uload n)` is the line `ULOAD <n>`. -/
inductive Line where
  | wr (r : Reg) (v : Word)
  | rd (r : Reg)
  | command (i : Instr)
  | word (w : Word)
deriving DecidableEq, Repr

/-- The host access a line stands for (R63). -/
def Line.assemble : Line → HostEvent
  | .wr r v => hostWrite r v
  | .rd r => hostRead r
  | .command i => hostWrite .cmd (encode i)
  | .word w => hostWrite .cmd w

/-- The line a command word prints as (R65). -/
def disassemble (w : Word) : Line :=
  match decodeCmd w with
  | some i => .command i
  | none => .word w

/-- The pseudo-commands of R64. -/
inductive Pseudo where
  | clsb (b : Byte)
  | clsc (c : Word)
  | enc (c : Word)
  | uload (n : BitVec 3) (v : Word)
  | ffeed (b : Byte)
  | build (bytes : List Byte)
deriving DecidableEq, Repr

/-- `WR ARG, v ; command` (R64). -/
def withOperand (v : Word) (i : Instr) : List Line := [.wr .arg v, .command i]

/-- `RD STATUS ; RD RESULT` (R64). -/
def readOutcome : List Line := [.rd .status, .rd .result]

/-- The expansion of a pseudo-command (R64). A byte operand is written to ARG with zeros above it. DEDUCED (log 12). -/
def Pseudo.expand : Pseudo → List Line
  | .clsb b => withOperand (zext32 b) .clsb
  | .clsc c => withOperand c .clsc
  | .enc c => withOperand c .enc
  | .uload n v => withOperand v (.uload n)
  | .ffeed b => withOperand (zext32 b) .ffeed
  | .build bytes =>
    .command .fstart :: (bytes.flatMap fun b => withOperand (zext32 b) .ffeed ++ readOutcome)
      ++ .command .fend :: readOutcome

/-- A host program performed line by line, top to bottom (R63, 20_memory.md R48). -/
def runProgram (p : List Line) (s : State) : Host.Outcome State Fault Refusal := performAll (p.map Line.assemble) s

/-! ## The text of a program (R63, R65) -/

/-- The register names of R63. -/
def Reg.name : Reg → String
  | .ctrl => "CTRL"
  | .arg => "ARG"
  | .cmd => "CMD"
  | .result => "RESULT"
  | .status => "STATUS"
  | .unitBytes => "UNIT_BYTES"
  | .unitUsed => "UNIT_USED"
  | .fcount => "FCOUNT"

/-- The hexadecimal digits. -/
def hexDigits : List Char := ['0', '1', '2', '3', '4', '5', '6', '7', '8', '9', 'A', 'B', 'C', 'D', 'E', 'F']

/-- One hexadecimal digit. -/
def hexDigit (d : BitVec 4) : Char := hexDigits.getD d.toNat '0'

/-- A 32-bit literal as eight hexadecimal digits. DESIGN CHOICE (log 12): R65 says hexadecimal, not how many digits. -/
def hexText (w : Word) : List Char :=
  '0' :: 'x' :: [7, 6, 5, 4, 3, 2, 1, 0].map fun i => hexDigit (w.extractLsb' (4 * i) 4)

/-- The characters of a line (R63, R65). -/
def Line.chars : Line → List Char
  | .wr r v => "WR  ".toList ++ r.name.toList ++ ", ".toList ++ hexText v
  | .rd r => "RD  ".toList ++ r.name.toList
  | .command (.uload n) => "ULOAD ".toList ++ [hexDigit (n.setWidth 4)]
  | .command i => i.mnemonic.toList
  | .word w => ".word ".toList ++ hexText w

/-- The text of a line. -/
def Line.text (l : Line) : String := String.ofList l.chars

/-- The value of a digit, either case. -/
def digitValue (c : Char) : Option Nat := hexDigits.findIdx? (· == c.toUpper)

/-- Digits read in a base, the most significant first, after the value read so far. -/
def digitsValue (base : Nat) : List Char → Nat → Option Nat
  | [], sofar => some sofar
  | c :: cs, sofar =>
    match digitValue c with
    | some d => if d < base then digitsValue base cs (base * sofar + d) else none
    | none => none

/-- A literal of at least one digit that fits 32 bits. -/
def readLiteral (base : Nat) (digits : List Char) : Option Word :=
  if digits = [] then none
  else match digitsValue base digits 0 with
    | some n => if n < 2 ^ 32 then some (BitVec.ofNat 32 n) else none
    | none => none

/-- `<value>`, a 32-bit literal (R63): hexadecimal after `0x`, else decimal. DESIGN CHOICE (log 12). -/
def readValue : List Char → Option Word
  | '0' :: 'x' :: digits => readLiteral 16 digits
  | digits => readLiteral 10 digits

/-- A byte operand: a literal below 256. -/
def readByte (t : List Char) : Option Byte :=
  match readValue t with
  | some v => if v.toNat < 256 then some (v.setWidth 8) else none
  | none => none

/-- ULOAD's `<n>`, 0 to 4 (R63). -/
def readCount (t : List Char) : Option (BitVec 3) :=
  match readValue t with
  | some v => if v.toNat ≤ 4 then some (v.setWidth 3) else none
  | none => none

/-- `<reg>` (R63). -/
def readRegName (t : List Char) : Option Reg :=
  [Reg.ctrl, .arg, .cmd, .result, .status, .unitBytes, .unitUsed, .fcount].find? fun r => r.name.toList == t

/-- The nine mnemonics of R63 that stand alone on a line. -/
def readMnemonic (t : List Char) : Option Instr :=
  [Instr.nop, .clsb, .clsc, .enc, .dec, .fstart, .ffeed, .fend, .srst].find? fun i => i.mnemonic.toList == t

/-- A line with one operand: RD, ULOAD, `.word`, or a pseudo-command of R64. -/
def readUnary (op a : List Char) : Option (List Line) :=
  if op = "RD".toList then (readRegName a).map fun r => [.rd r]
  else if op = "ULOAD".toList then (readCount a).map fun n => [.command (.uload n)]
  else if op = ".word".toList then (readValue a).map fun w => [.word w]
  else if op = "CLSB".toList then (readByte a).map fun b => (Pseudo.clsb b).expand
  else if op = "CLSC".toList then (readValue a).map fun c => (Pseudo.clsc c).expand
  else if op = "ENC".toList then (readValue a).map fun c => (Pseudo.enc c).expand
  else if op = "FFEED".toList then (readByte a).map fun b => (Pseudo.ffeed b).expand
  else none

/-- A line with two operands: WR, or the pseudo-command `ULOAD n, v`. -/
def readBinary (op a b : List Char) : Option (List Line) :=
  if op = "WR".toList then (readRegName a).bind fun r => (readValue b).map fun v => [.wr r v]
  else if op = "ULOAD".toList then (readCount a).bind fun n => (readValue b).map fun v => (Pseudo.uload n v).expand
  else none

/-- The accesses a line's tokens stand for; none for a line without tokens (log 12). BUILD takes one or more bytes (R64). -/
def readTokens : List (List Char) → Option (List Line)
  | [] => some []
  | [op] => (readMnemonic op).map fun i => [.command i]
  | op :: a :: rest =>
    if op = "BUILD".toList then ((a :: rest).mapM readByte).map fun bs => (Pseudo.build bs).expand
    else match rest with
      | [] => readUnary op a
      | [b] => readBinary op a b
      | _ :: _ :: _ => none

/-- The tokens of a line, which spaces and commas separate; `tok` is the one being read. DESIGN CHOICE (log 12). -/
def tokenize : List Char → List Char → List (List Char)
  | [], tok => if tok = [] then [] else [tok]
  | c :: cs, tok =>
    if c = ' ' ∨ c = ',' then if tok = [] then tokenize cs [] else tok :: tokenize cs []
    else tokenize cs (tok ++ [c])

/-- A line of a program, assembled (R63, R64); `none` is a line the syntax does not have. DESIGN CHOICE (log 12): R63 only
shows comments after a line; here one starts at a token that is `--` alone, and a blank or comment-only line is no access. -/
def readLine (text : String) : Option (List Line) :=
  readTokens ((tokenize text.toList []).takeWhile (· ≠ "--".toList))

/-- A program, line by line, top to bottom (R63). -/
def readProgram (lines : List String) : Option (List Line) := (lines.mapM readLine).map List.flatten

end Sys2Proof.Machine
end

