-- ==== Sys2Proof/Safety.lean ====
section
/-! DEFINITION. What claims are stated in terms of: the invariants of the block, the host's access duty, the launch state,
the units of a byte stream and the Decoded String of a frame. -/

namespace Sys2Proof.Machine

/-- 10_state.md R31: `UNIT.bytes[i] = 0` for every `i ≥ UNIT.used` (`used ∈ {0..4}` is its type). -/
abbrev MultibyteUnit.Canonical (u : MultibyteUnit) : Prop := ∀ i : Fin 4, u.used.val ≤ i.val → u.bytes.get i.val = 0

/-- R32: `used = 0 ⇔ len = 0`, `used < len` when `len ≠ 0`; with it, that the pending lead byte announced `len`
(42_frame.md R94, R97), and decision D15's zero bytes past `used`. -/
abbrev FrameUnit.Consistent (f : FrameUnit) : Prop :=
  (f.used.val = 0 ↔ f.len.val = 0) ∧
  (f.len.val ≠ 0 → f.used.val < f.len.val ∧ (bsl (f.bytes.get 0)).map Length.toFin = some f.len) ∧
  (∀ i : Fin 4, f.used.val ≤ i.val → f.bytes.get i.val = 0)

/-- The invariant of the block. The clauses on STATUS follow from R25, R26, R27 and the command rules. -/
structure State.Inv (s : State) : Prop where
  /-- R31, 41_codec.md R87. -/
  unitCanonical : s.unit.Canonical
  /-- R32. -/
  funitConsistent : s.funit.Consistent
  /-- R26: a failure sets STICKY. -/
  failureSticks : s.code ≠ .ok → s.sticky = true
  /-- R25: CPV = 1 only after an FFEED that completed a unit in an open frame. -/
  emittedInFrame : s.cpv = true → s.code = .ok ∧ s.fstate = .active ∧ s.funit.used.val = 0 ∧ s.result.toNat ≤ 0x1FFFFF
  /-- R27: the frame is in ERROR only after a failure. -/
  errorSticks : s.fstate = .error → s.sticky = true
  /-- R27, 42_frame.md R89: no unit is pending in IDLE or DONE. -/
  closedEmpty : s.fstate = .idle ∨ s.fstate = .done → s.funit.used.val = 0
  /-- R27, R33: no frame has counted anything in IDLE. -/
  idleCount : s.fstate = .idle → s.fcount = 0

/-- The host keeps its access duty (20_memory.md R42, 70_reset_and_hazards.md R135): 32-bit, aligned, in the window. -/
def HostEvent.Legal : HostEvent → Prop
  | .read off width => width = 32 ∧ 0 ≤ off ∧ off < 32 ∧ off % 4 = 0
  | .write off width _ => width = 32 ∧ 0 ≤ off ∧ off < 32 ∧ off % 4 = 0
  | .reset => True

/-- The launch premise (R136): the block is in its reset state. What the host is going to send is its own. -/
def State.Launched (s : State) : Prop := s = { State.reset with pending := s.pending, returned := s.returned }

/-- The first `used` bytes of a unit, in wire order (R45). -/
def MultibyteUnit.wire (u : MultibyteUnit) : List Byte := (List.range u.used.val).map u.bytes.get

/-- A whole unit: it holds as many bytes as its lead byte announces (42_frame.md R99 (a)). -/
def MultibyteUnit.Whole (u : MultibyteUnit) : Prop := (bsl (u.bytes.get 0)).map Length.toFin = some u.used

/-- The codepoints a host collects from alternate reads of STATUS and RESULT: RESULT wherever CPV (STATUS[3]) is 1
(42_frame.md R91, 70_reset_and_hazards.md R128, R129). -/
def emittedCodepoints : List Word → List Word
  | status :: result :: rest =>
    if status.getLsbD 3 then result :: emittedCodepoints rest else emittedCodepoints rest
  | _ => []

/-- The source's Decoded String (R91); the block holds only its length. -/
structure DecodedString where
  raw : List Byte
  chars : List Word
  length : Word
deriving DecidableEq, Repr

/-- The Decoded String of a frame from the bytes fed, the values the host read and the end state: none unless the frame
ended DONE (R91, R96, 70_reset_and_hazards.md R131). -/
def decodedString (raw : List Byte) (readings : List Word) (t : State) : Option DecodedString :=
  if t.fstate = .done then some ⟨raw, emittedCodepoints readings, t.fcount⟩ else none

end Sys2Proof.Machine
end

