-- ==== Sys2Proof/Certificates/Slice0/Obligations.lean ====
section
/-! DEFINITION. The statements for the provers. -/

open Sys2Proof Sys2Proof.Machine

/-! ## Encoding -/

/-- 30_encoding.md R57 (last paragraph): the fourteen legal words, each written out, and words of each illegal kind. -/
def Obligations.LegalWordsDecodeAsListed : Prop :=
  decodeCmd 0x00000000 = some .nop ∧ decodeCmd 0x00000001 = some .clsb ∧ decodeCmd 0x00000002 = some .clsc ∧
  decodeCmd 0x00000003 = some .enc ∧ decodeCmd 0x00000004 = some .dec ∧ decodeCmd 0x00000005 = some (.uload 0) ∧
  decodeCmd 0x00000015 = some (.uload 1) ∧ decodeCmd 0x00000025 = some (.uload 2) ∧
  decodeCmd 0x00000035 = some (.uload 3) ∧ decodeCmd 0x00000045 = some (.uload 4) ∧
  decodeCmd 0x00000006 = some .fstart ∧ decodeCmd 0x00000007 = some .ffeed ∧ decodeCmd 0x00000008 = some .fend ∧
  decodeCmd 0x0000000F = some .srst ∧
  decodeCmd 0x00000009 = none ∧ decodeCmd 0x00000011 = none ∧ decodeCmd 0x00000055 = none ∧ decodeCmd 0x80000001 = none

/-- Decode and encode agree in both directions: a word decodes to a command exactly when the command is well-formed and
the word is its encoding (R53 to R57). -/
def Obligations.DecodeAgreesWithEncode : Prop :=
  ∀ (w : Word) (i : Instr), decodeCmd w = some i ↔ i.WellFormed ∧ encode i = w

/-- R57 (last paragraph): exactly fourteen words are legal; every other word of the 2^32 is ILLEGAL. -/
def Obligations.ExactlyFourteenLegalWords : Prop :=
  ∀ w : Word, (decodeCmd w).isSome = true ↔
    w ∈ [0x00#32, 0x01#32, 0x02#32, 0x03#32, 0x04#32, 0x05#32, 0x15#32, 0x25#32, 0x35#32, 0x45#32, 0x06#32, 0x07#32,
      0x08#32, 0x0F#32]

/-- R60 and 43_control.md R102: which words are illegal, and that writing one to CMD changes RESULT, CODE, CPV and
STICKY only. -/
def Obligations.IllegalWordsReportIllegal : Prop :=
  ∀ (w : Word) (s : State),
    (decodeCmd w = none ↔
      w.toNat / 128 ≠ 0 ∨ (0x9 ≤ w.toNat % 16 ∧ w.toNat % 16 ≤ 0xE) ∨
      (w.toNat % 16 = 0x5 ∧ 4 < w.toNat / 16 % 8) ∨ (w.toNat % 16 ≠ 0x5 ∧ w.toNat / 16 % 8 ≠ 0)) ∧
    (decodeCmd w = none →
      perform (.write 0x08 32 w) s =
        .next { s with result := 0xFFFFFFFF, code := .illegal, cpv := false, sticky := true })

/-- The round trip is R65's: reading the printed text of a word as a line of a program (R63) gives back the one CMD write of
the word. The digit count of the printed form (`hexText`: eight, upper case) and how `readLine` reads literals, tokens and
comments are the model's DESIGN CHOICE (log 12). -/
def Obligations.DisassemblyAssemblesBack : Prop :=
  ∀ w : Word,
    (∃ l, readLine (disassemble w).text = some [l] ∧ l.assemble = .write 0x08 32 w) ∧
    (∀ i, decodeCmd w = some i → (∀ n, i ≠ .uload n) → (disassemble w).text = i.mnemonic) ∧
    (∀ n, decodeCmd w = some (.uload n) →
      (disassemble w).text = String.ofList ("ULOAD ".toList ++ [['0', '1', '2', '3', '4'].getD n.toNat '?'])) ∧
    (decodeCmd w = none → (disassemble w).text = String.ofList (".word ".toList ++ hexText w))

/-! ## The step and the host interface -/

/-- 43_control.md R106: a CMD write at the head of what is pending runs the command its word decodes to; the event leaves
the list (log 1). -/
def Obligations.StepRunsDecodedCommand : Prop :=
  ∀ (s : State) (w : Word) (rest : List HostEvent) (i : Instr),
    s.pending = .write 0x08 32 w :: rest → decodeCmd w = some i → step s = exec i { s with pending := rest }

/-- The word placed by `withFetchWord` is what the very next step runs, in the state it was placed in (log 10). -/
def Obligations.PlacedWordRunsNext : Prop :=
  ∀ (s : State) (nbits w : Nat) (i : Instr),
    w < 2 ^ nbits → decodeTableWord nbits w = some i → step (s.withFetchWord nbits w) = exec i s

/-- R106: a CMD write is total and deterministic; it gives exactly one next state, the one of the decoded command or of
the ILLEGAL outcome. Besides CTRL and ARG writes and reset no other event changes the block's state. -/
def Obligations.CmdWriteIsTotal : Prop :=
  (∀ (w : Word) (s : State), ∃! t : State,
    perform (.write 0x08 32 w) s = .next t ∧
    (∀ i, decodeCmd w = some i → exec i s = .next t) ∧
    (decodeCmd w = none → t = { s with result := 0xFFFFFFFF, code := .illegal, cpv := false, sticky := true })) ∧
  (∀ (e : HostEvent) (s t : State), perform e s = .next t → e ≠ .reset →
    (∀ off ∈ [0x00, 0x04, 0x08], ∀ v, e ≠ .write off 32 v) → t = { s with returned := t.returned })

/-- 20_memory.md R42: an access that is not 32 bits wide, not aligned or outside the window has no step (it is refused),
and nothing else stops the machine. That a step with nothing pending keeps the state is the model's choice (log 2). -/
def Obligations.OnlyUndefinedAccessesRefused : Prop :=
  ∀ s : State,
    (∀ e rest, s.pending = e :: rest → ((∃ why, step s = .refused why) ↔ ¬ e.Legal)) ∧
    (∀ e rest, s.pending = e :: rest → e.Legal → ∃ t, step s = .next t) ∧
    (s.pending = [] → step s = .next s)

/-- R39: BASE is 32-byte aligned, an address of the window is decoded by its offset from BASE alone, and the accesses the
block defines are those at the eight 4-byte-aligned addresses of the window. BASE is a parameter of the model (log 5). -/
def Obligations.WindowStartsAtBase : Prop :=
  Config.base % 32 = 0 ∧
  (∀ (r : Reg) (v : Word), readAt (Config.base + r.offset) = hostRead r ∧ writeAt (Config.base + r.offset) v = hostWrite r v) ∧
  (∀ (addr : Nat) (v : Word), ((writeAt addr v).Legal ↔ ∃ r : Reg, addr = Config.base + r.offset) ∧
    ((readAt addr).Legal ↔ (writeAt addr v).Legal))

/-- R43: what a read returns at each offset, reserved bits as 0 and CMD as 0, and that any number of reads changes no state
of the block. -/
def Obligations.ReadsReturnRegistersOnly : Prop :=
  ∀ s : State,
    perform (.read 0x00 32) s = .next { s with returned := s.returned ++ [BitVec.ofNat 32 s.nulterm.toNat] } ∧
    perform (.read 0x04 32) s = .next { s with returned := s.returned ++ [s.arg] } ∧
    perform (.read 0x08 32) s = .next { s with returned := s.returned ++ [0#32] } ∧
    perform (.read 0x0C 32) s = .next { s with returned := s.returned ++ [s.result] } ∧
    perform (.read 0x10 32) s = .next { s with returned := s.returned ++ [BitVec.ofNat 32
      (s.code.bits.toNat + 8 * s.cpv.toNat + 16 * s.sticky.toNat + 32 * s.fstate.bits.toNat + 128 * s.funit.used.val
        + 1024 * s.funit.len.val)] } ∧
    perform (.read 0x14 32) s = .next { s with returned := s.returned ++ [BitVec.ofNat 32
      (s.unit.bytes.b0.toNat + 2 ^ 8 * s.unit.bytes.b1.toNat + 2 ^ 16 * s.unit.bytes.b2.toNat
        + 2 ^ 24 * s.unit.bytes.b3.toNat)] } ∧
    perform (.read 0x18 32) s = .next { s with returned := s.returned ++ [BitVec.ofNat 32 s.unit.used.val] } ∧
    perform (.read 0x1C 32) s = .next { s with returned := s.returned ++ [s.fcount] } ∧
    (∀ rs : List Reg, performAll (rs.map hostRead) s = .next { s with returned := s.returned ++ rs.map (readReg s) })

/-- 10_state.md R24 and R28: the fields of the STATUS word a read returns. -/
def Obligations.StatusFieldLayout : Prop :=
  ∀ s : State, ∃ v : Word, perform (.read 0x10 32) s = .next { s with returned := s.returned ++ [v] } ∧
    v.toNat % 8 = (match s.code with | .ok => 0 | .invalid => 1 | .truncated => 2 | .illegal => 3 | .sequence => 4) ∧
    v.toNat / 8 % 2 = s.cpv.toNat ∧ v.toNat / 16 % 2 = s.sticky.toNat ∧
    v.toNat / 32 % 4 = (match s.fstate with | .idle => 0 | .active => 1 | .done => 2 | .error => 3) ∧
    v.toNat / 128 % 8 = s.funit.used.val ∧ v.toNat / 1024 % 8 = s.funit.len.val ∧ v.toNat / 8192 = 0

/-- 10_state.md R29 and 20_memory.md R45, R46: `UNIT.bytes[i]` stands at bits `[8i+7:8i]` of UNIT_BYTES, and ULOAD of a
UNIT_BYTES value with the unit's count reproduces the unit. -/
def Obligations.UloadOfUnitBytesReproducesUnit : Prop :=
  ∀ s : State,
    (∀ i : Fin 4, (readReg s .unitBytes).extractLsb' (8 * i.val) 8 = s.unit.bytes.get i.val) ∧
    (s.unit.Canonical → ∃ t,
      exec (.uload (BitVec.ofNat 3 s.unit.used.val)) { s with arg := readReg s .unitBytes } = .next t ∧ t.unit = s.unit)

/-- 43_control.md R103, R104, R105: what a write to each register but CMD does; it runs no command, CTRL[31:1] stays 0, and
ARG keeps its value across commands (SRST is the one that resets it, R101). -/
def Obligations.RegisterWritesDoOnlyTheirOwn : Prop :=
  ∀ (s : State) (v : Word),
    perform (.write 0x00 32 v) s = .next { s with nulterm := decide (v.toNat % 2 = 1) } ∧
    (∃ t, performAll [.write 0x00 32 v, .read 0x00 32] s = .next t ∧ t.returned = s.returned ++ [BitVec.ofNat 32 (v.toNat % 2)]) ∧
    perform (.write 0x04 32 v) s = .next { s with arg := v } ∧
    (∀ w t, decodeCmd w ≠ some .srst → perform (.write 0x08 32 w) { s with arg := v } = .next t → t.arg = v) ∧
    (∀ off ∈ [0x0C, 0x10, 0x14, 0x18, 0x1C], perform (.write off 32 v) s = .next s)

/-- 20_memory.md R49: the state after any sequence of host accesses is the result of applying them one after another. Here:
stepping through what is pending gives what performing the events in order gives, whatever else is still to come. The list of them is the model's choice (log 1). -/
def Obligations.StepsApplyEventsInOrder : Prop :=
  ∀ (s t : State) (later : List HostEvent),
    performAll s.pending { s with pending := later } = .next t →
    core.run s.pending.length { s with pending := s.pending ++ later } = .next t ∧ t.pending = later

/-! ## Reset -/

/-- 10_state.md R37: the reset value of every piece of state, and that every register reads 0. -/
def Obligations.ResetValues : Prop :=
  State.reset.nulterm = false ∧ State.reset.arg = 0 ∧ State.reset.result = 0 ∧ State.reset.code = .ok ∧
  State.reset.cpv = false ∧ State.reset.sticky = false ∧ State.reset.fstate = .idle ∧
  State.reset.unit = ⟨⟨0, 0, 0, 0⟩, 0⟩ ∧ State.reset.funit = ⟨⟨0, 0, 0, 0⟩, 0, 0⟩ ∧ State.reset.fcount = 0 ∧
  (∀ r : Reg, readReg State.reset r = 0)

/-- 43_control.md R101 and 70_reset_and_hazards.md R122, R123: SRST and the reset input have the same effect, every piece of
the block's state at its reset value; afterwards every register reads 0. That `pending` and `returned` are kept is the model's choice, not these
rules' (log 6, DEDUCED). -/
def Obligations.SoftResetIsHardwareReset : Prop :=
  ∀ s : State, ∃ t : State, exec .srst s = .next t ∧ perform .reset s = .next t ∧
    t = { nulterm := false, arg := 0, result := 0, code := .ok, cpv := false, sticky := false, fstate := .idle,
          unit := ⟨⟨0, 0, 0, 0⟩, 0⟩, funit := ⟨⟨0, 0, 0, 0⟩, 0, 0⟩, fcount := 0,
          pending := s.pending, returned := s.returned } ∧
    (∀ r : Reg, readReg t r = 0)

/-- 70_reset_and_hazards.md R124: right after reset a DEC reports INVALID, and FFEED and FEND report SEQUENCE. -/
def Obligations.FirstCommandsAfterReset : Prop :=
  ∀ s : State, s.Launched →
    exec .dec s = .next { s with result := 0xFFFFFFFF, code := .invalid, cpv := false, sticky := true } ∧
    exec .ffeed s = .next { s with result := 0xFFFFFFFF, code := .sequence, cpv := false, sticky := true } ∧
    exec .fend s = .next { s with result := 0xFFFFFFFF, code := .sequence, cpv := false, sticky := true }

/-! ## The commands -/

/-- 43_control.md R100: NOP completes and changes nothing. -/
def Obligations.NopChangesNothing : Prop := ∀ s : State, exec .nop s = .next s

/-- 40_classify.md R74: CLSB by the range of `ARG[7:0]`; nothing but RESULT, CODE, CPV and STICKY is written. -/
def Obligations.ClsbClassifiesLeadByte : Prop :=
  decodeCmd 0x00000001 = some .clsb ∧
  ∀ (s : State) (b : Nat), b = s.arg.toNat % 256 →
    (b ≤ 0x7F → exec .clsb s = .next { s with result := 1, code := .ok, cpv := false }) ∧
    (0xC0 ≤ b ∧ b ≤ 0xDF → exec .clsb s = .next { s with result := 2, code := .ok, cpv := false }) ∧
    (0xE0 ≤ b ∧ b ≤ 0xEF → exec .clsb s = .next { s with result := 3, code := .ok, cpv := false }) ∧
    (0xF0 ≤ b ∧ b ≤ 0xF7 → exec .clsb s = .next { s with result := 4, code := .ok, cpv := false }) ∧
    (0x80 ≤ b ∧ b ≤ 0xBF ∨ 0xF8 ≤ b →
      exec .clsb s = .next { s with result := 0xFFFFFFFF, code := .invalid, cpv := false, sticky := true })

/-- 40_classify.md R75: CLSC by the band of ARG; nothing but RESULT, CODE, CPV and STICKY is written. -/
def Obligations.ClscClassifiesCodepoint : Prop :=
  decodeCmd 0x00000002 = some .clsc ∧
  ∀ (s : State) (c : Nat), c = s.arg.toNat →
    (c ≤ 0x7F → exec .clsc s = .next { s with result := 1, code := .ok, cpv := false }) ∧
    (0x80 ≤ c ∧ c ≤ 0x7FF → exec .clsc s = .next { s with result := 2, code := .ok, cpv := false }) ∧
    (0x800 ≤ c ∧ c ≤ 0xFFFF → exec .clsc s = .next { s with result := 3, code := .ok, cpv := false }) ∧
    (0x10000 ≤ c ∧ c ≤ 0x10FFFF → exec .clsc s = .next { s with result := 4, code := .ok, cpv := false }) ∧
    (0x10FFFF < c → exec .clsc s = .next { s with result := 0xFFFFFFFF, code := .invalid, cpv := false, sticky := true })

/-- 40_classify.md R70 and 10_state.md R17 (a): no byte matches two rows, and rows 1 to 4 partition 0 to 0x10FFFF. -/
def Obligations.TableRowsDisjoint : Prop :=
  (∀ (b : Byte) (i j : Fin 5), rowMatches b i = true → rowMatches b j = true → i = j) ∧
  (∀ c : Word, c.toNat ≤ 0x10FFFF ↔ ∃! i : Fin 5, i ≠ 0 ∧ (row i).rangeStart.toNat ≤ c.toNat ∧ c.toNat ≤ (row i).rangeEnd.toNat)

/-- 40_classify.md R76: the lead byte of an encoding classifies to the codepoint's own length. -/
def Obligations.LengthAgreement : Prop :=
  ∀ (c : Word) (l : Length), csl c = some l → bsl ((encodeUnit c).bytes.get 0) = some l

/-- 41_codec.md R84, with the bit layout of 30_encoding.md R67: ENC writes UNIT on every path and nothing else but RESULT,
CODE, CPV and STICKY. -/
def Obligations.EncEncodesCodepoint : Prop :=
  decodeCmd 0x00000003 = some .enc ∧
  ∀ (s : State) (c : Word), c = s.arg →
    (c.toNat ≤ 0x7F → exec .enc s = .next { s with
      unit := ⟨⟨0b0#1 ++ c.extractLsb' 0 7, 0, 0, 0⟩, 1⟩, result := 1, code := .ok, cpv := false }) ∧
    (0x80 ≤ c.toNat ∧ c.toNat ≤ 0x7FF → exec .enc s = .next { s with
      unit := ⟨⟨0b110#3 ++ c.extractLsb' 6 5, 0b10#2 ++ c.extractLsb' 0 6, 0, 0⟩, 2⟩,
      result := 2, code := .ok, cpv := false }) ∧
    (0x800 ≤ c.toNat ∧ c.toNat ≤ 0xFFFF → exec .enc s = .next { s with
      unit := ⟨⟨0b1110#4 ++ c.extractLsb' 12 4, 0b10#2 ++ c.extractLsb' 6 6, 0b10#2 ++ c.extractLsb' 0 6, 0⟩, 3⟩,
      result := 3, code := .ok, cpv := false }) ∧
    (0x10000 ≤ c.toNat ∧ c.toNat ≤ 0x10FFFF → exec .enc s = .next { s with
      unit := ⟨⟨0b11110#5 ++ c.extractLsb' 18 3, 0b10#2 ++ c.extractLsb' 12 6, 0b10#2 ++ c.extractLsb' 6 6,
        0b10#2 ++ c.extractLsb' 0 6⟩, 4⟩,
      result := 4, code := .ok, cpv := false }) ∧
    (0x10FFFF < c.toNat → exec .enc s = .next { s with
      unit := ⟨⟨0, 0, 0, 0⟩, 0⟩, result := 0xFFFFFFFF, code := .invalid, cpv := false, sticky := true })

/-- 41_codec.md R85: DEC's failures in their order and the value it assembles; UNIT and everything but RESULT, CODE, CPV
and STICKY is unchanged, and ARG is not read. -/
def Obligations.DecDecodesUnit : Prop :=
  decodeCmd 0x00000004 = some .dec ∧
  ∀ (s : State) (u : UnitBytes) (used b : Nat), u = s.unit.bytes → used = s.unit.used.val → b = u.b0.toNat →
    (used = 0 → exec .dec s = .next { s with result := 0xFFFFFFFF, code := .invalid, cpv := false, sticky := true }) ∧
    (used ≠ 0 → 0x80 ≤ b ∧ b ≤ 0xBF ∨ 0xF8 ≤ b →
      exec .dec s = .next { s with result := 0xFFFFFFFF, code := .invalid, cpv := false, sticky := true }) ∧
    (∀ lo hi len, (lo, hi, len) ∈ [(0x00, 0x7F, 1), (0xC0, 0xDF, 2), (0xE0, 0xEF, 3), (0xF0, 0xF7, 4)] →
      lo ≤ b → b ≤ hi → used ≠ 0 →
      (used < len → exec .dec s = .next { s with result := 0xFFFFFFFF, code := .truncated, cpv := false, sticky := true }) ∧
      (len < used → exec .dec s = .next { s with result := 0xFFFFFFFF, code := .invalid, cpv := false, sticky := true })) ∧
    (used = 1 → b ≤ 0x7F →
      exec .dec s = .next { s with result := 0#25 ++ u.b0.extractLsb' 0 7, code := .ok, cpv := false }) ∧
    (used = 2 → 0xC0 ≤ b ∧ b ≤ 0xDF → exec .dec s = .next { s with
      result := 0#21 ++ u.b0.extractLsb' 0 5 ++ u.b1.extractLsb' 0 6, code := .ok, cpv := false }) ∧
    (used = 3 → 0xE0 ≤ b ∧ b ≤ 0xEF → exec .dec s = .next { s with
      result := 0#16 ++ u.b0.extractLsb' 0 4 ++ u.b1.extractLsb' 0 6 ++ u.b2.extractLsb' 0 6, code := .ok, cpv := false }) ∧
    (used = 4 → 0xF0 ≤ b ∧ b ≤ 0xF7 → exec .dec s = .next { s with
      result := 0#11 ++ u.b0.extractLsb' 0 3 ++ u.b1.extractLsb' 0 6 ++ u.b2.extractLsb' 0 6 ++ u.b3.extractLsb' 0 6,
      code := .ok, cpv := false })

/-- 41_codec.md R86: ULOAD n takes the first n bytes of ARG and zeroes the rest; it cannot fail and writes nothing else but
RESULT, CODE and CPV. -/
def Obligations.UloadFillsUnit : Prop :=
  ∀ (s : State) (n : Fin 5),
    decodeCmd (BitVec.ofNat 32 (5 + 16 * n.val)) = some (.uload (BitVec.ofNat 3 n.val)) ∧
    exec (.uload (BitVec.ofNat 3 n.val)) s = .next { s with
      unit := ⟨⟨if 1 ≤ n.val then s.arg.extractLsb' 0 8 else 0, if 2 ≤ n.val then s.arg.extractLsb' 8 8 else 0,
        if 3 ≤ n.val then s.arg.extractLsb' 16 8 else 0, if 4 ≤ n.val then s.arg.extractLsb' 24 8 else 0⟩, n⟩,
      result := BitVec.ofNat 32 n.val, code := .ok, cpv := false }

/-- 41_codec.md R82: the round trip, for the functions and for the commands ENC then DEC; above 0x10FFFF the unit is empty
and its decode is Invalid. -/
def Obligations.EncodeDecodeRoundTrip : Prop :=
  ∀ c : Word,
    (c.toNat ≤ 0x10FFFF → decodeUnit (encodeUnit c) = .value c) ∧
    (0x10FFFF < c.toNat → encodeUnit c = ⟨⟨0, 0, 0, 0⟩, 0⟩ ∧ decodeUnit (encodeUnit c) = .invalid) ∧
    (∀ s : State, s.arg = c → ∃ t u, exec .enc s = .next t ∧ exec .dec t = .next u ∧
      (c.toNat ≤ 0x10FFFF → u.code = .ok ∧ u.result = c) ∧
      (0x10FFFF < c.toNat → t.unit.used = 0 ∧ u.code = .invalid ∧ u.result = 0xFFFFFFFF))

/-- 41_codec.md R83: encode is injective on 0 to 0x10FFFF, decode is not, and encoding a decoded unit gives the unit back
exactly when the unit is one encode produces. -/
def Obligations.EncodeInjectiveDecodeNot : Prop :=
  (∀ c d : Word, c.toNat ≤ 0x10FFFF → d.toNat ≤ 0x10FFFF → encodeUnit c = encodeUnit d → c = d) ∧
  decodeUnit ⟨⟨0x41, 0, 0, 0⟩, 1⟩ = .value 0x41 ∧ decodeUnit ⟨⟨0xC1, 0x81, 0, 0⟩, 2⟩ = .value 0x41 ∧
  decodeUnit ⟨⟨0xC3, 0xA9, 0, 0⟩, 2⟩ = .value 0xE9 ∧ decodeUnit ⟨⟨0xC3, 0x29, 0, 0⟩, 2⟩ = .value 0xE9 ∧
  (∀ (u : MultibyteUnit) (c : Word), decodeUnit u = .value c →
    (encodeUnit c = u ↔ ∃ d : Word, d.toNat ≤ 0x10FFFF ∧ u = encodeUnit d))

/-- 41_codec.md R81 (a), (b), (e): decoded values have 21 bits, which four-byte units exceed 0x10FFFF, and that the top two
bits of a continuation byte do not matter. -/
def Obligations.DecodeChecksNoContent : Prop :=
  (∀ (u : MultibyteUnit) (c : Word), decodeUnit u = .value c →
    c.toNat ≤ 0x1FFFFF ∧
    (0x10FFFF < c.toNat ↔ 0xF5 ≤ u.bytes.b0.toNat ∨ u.bytes.b0.toNat = 0xF4 ∧ 0x0F < u.bytes.b1.toNat % 64)) ∧
  decodeUnit ⟨⟨0xF7, 0xBF, 0xBF, 0xBF⟩, 4⟩ = .value 0x1FFFFF ∧
  (∀ u v : MultibyteUnit, u.used = v.used → u.bytes.b0 = v.bytes.b0 →
    u.bytes.b1.toNat % 64 = v.bytes.b1.toNat % 64 → u.bytes.b2.toNat % 64 = v.bytes.b2.toNat % 64 →
    u.bytes.b3.toNat % 64 = v.bytes.b3.toNat % 64 → decodeUnit u = decodeUnit v)

/-- 41_codec.md R79 (c): encode produces the shortest form, and never a lead 0xC0, 0xC1 or 0xF5 to 0xFF. -/
def Obligations.EncodeIsShortestForm : Prop :=
  (∀ (u : MultibyteUnit) (c : Word), decodeUnit u = .value c → (encodeUnit c).used.val ≤ u.used.val) ∧
  (∀ c : Word, (encodeUnit c).bytes.b0 ≠ 0xC0 ∧ (encodeUnit c).bytes.b0 ≠ 0xC1 ∧ (encodeUnit c).bytes.b0.toNat < 0xF5)

/-- 42_frame.md R92: FSTART opens a frame from every frame state, discarding the unit and the count. -/
def Obligations.FstartOpensFrame : Prop :=
  decodeCmd 0x00000006 = some .fstart ∧
  ∀ s : State, exec .fstart s = .next { s with
    funit := ⟨⟨0, 0, 0, 0⟩, 0, 0⟩, fcount := 0, fstate := .active, result := 0, code := .ok, cpv := false }

/-- 42_frame.md R93 and R95: FEND and the NULTERM terminator end a frame alike; FEND outside a frame reports SEQUENCE. -/
def Obligations.FrameEndClosesFrame : Prop :=
  decodeCmd 0x00000008 = some .fend ∧
  ∀ (s : State) (i : Instr),
    i = .fend ∨ i = .ffeed ∧ s.nulterm = true ∧ s.arg.toNat % 256 = 0 →
    (s.fstate ≠ .active → exec i s = .next { s with
      result := 0xFFFFFFFF, code := .sequence, cpv := false, sticky := true }) ∧
    (s.fstate = .active → s.funit.used ≠ 0 → exec i s = .next { s with
      fstate := .error, result := 0xFFFFFFFF, code := .truncated, cpv := false, sticky := true }) ∧
    (s.fstate = .active → s.funit.used = 0 → exec i s = .next { s with
      fstate := .done, result := s.fcount, code := .ok, cpv := false })

/-- 42_frame.md R94: every path of FFEED. The paths inside a unit are stated for FUNIT as 10_state.md R32 says it is. -/
def Obligations.FfeedFeedsOneByte : Prop :=
  decodeCmd 0x00000007 = some .ffeed ∧
  ∀ (s : State) (b : Byte), b = s.arg.extractLsb' 0 8 →
    (s.fstate ≠ .active → exec .ffeed s = .next { s with
      result := 0xFFFFFFFF, code := .sequence, cpv := false, sticky := true }) ∧
    (s.fstate = .active → s.nulterm = true ∧ b = 0 →
      (s.funit.used ≠ 0 → exec .ffeed s = .next { s with
        fstate := .error, result := 0xFFFFFFFF, code := .truncated, cpv := false, sticky := true }) ∧
      (s.funit.used = 0 → exec .ffeed s = .next { s with
        fstate := .done, result := s.fcount, code := .ok, cpv := false })) ∧
    (s.fstate = .active → ¬ (s.nulterm = true ∧ b = 0) → s.funit.used = 0 →
      (0x80 ≤ b.toNat ∧ b.toNat ≤ 0xBF ∨ 0xF8 ≤ b.toNat → exec .ffeed s = .next { s with
        fstate := .error, result := 0xFFFFFFFF, code := .invalid, cpv := false, sticky := true }) ∧
      (b.toNat ≤ 0x7F → exec .ffeed s = .next { s with
        fcount := s.fcount + 1, result := b.setWidth 32, code := .ok, cpv := true }) ∧
      (∀ lo hi len, (lo, hi, len) ∈ [(0xC0, 0xDF, (2 : Fin 5)), (0xE0, 0xEF, 3), (0xF0, 0xF7, 4)] →
        lo ≤ b.toNat → b.toNat ≤ hi → exec .ffeed s = .next { s with
          funit := ⟨⟨b, s.funit.bytes.b1, s.funit.bytes.b2, s.funit.bytes.b3⟩, 1, len⟩,
          result := 0, code := .ok, cpv := false })) ∧
    (s.fstate = .active → ¬ (s.nulterm = true ∧ b = 0) → s.funit.used ≠ 0 → s.funit.Consistent →
      (∀ m : Fin 4, m.val = s.funit.used.val + 1 → m.val < s.funit.len.val → exec .ffeed s = .next { s with
        funit := ⟨s.funit.bytes.set s.funit.used.val b, m, s.funit.len⟩, result := 0, code := .ok, cpv := false }) ∧
      (s.funit.used = 1 → s.funit.len = 2 → exec .ffeed s = .next { s with
        funit := .empty, fcount := s.fcount + 1,
        result := 0#21 ++ s.funit.bytes.b0.extractLsb' 0 5 ++ b.extractLsb' 0 6, code := .ok, cpv := true }) ∧
      (s.funit.used = 2 → s.funit.len = 3 → exec .ffeed s = .next { s with
        funit := .empty, fcount := s.fcount + 1,
        result := 0#16 ++ s.funit.bytes.b0.extractLsb' 0 4 ++ s.funit.bytes.b1.extractLsb' 0 6 ++ b.extractLsb' 0 6,
        code := .ok, cpv := true }) ∧
      (s.funit.used = 3 → s.funit.len = 4 → exec .ffeed s = .next { s with
        funit := .empty, fcount := s.fcount + 1,
        result := 0#11 ++ s.funit.bytes.b0.extractLsb' 0 3 ++ s.funit.bytes.b1.extractLsb' 0 6
          ++ s.funit.bytes.b2.extractLsb' 0 6 ++ b.extractLsb' 0 6,
        code := .ok, cpv := true }))

/-! ## Rules of the whole machine -/

/-- 42_frame.md R89: the frame state machine, with the code each transition reports. "Any command not listed leaves FSTATE
unchanged." The transition inside a unit is stated for FUNIT as 10_state.md R32 says it is. -/
def Obligations.FrameStateMachine : Prop :=
  ∀ s : State,
    (∀ t, exec .fstart s = .next t → t.fstate = .active ∧ t.code = .ok) ∧
    (∀ t, exec .srst s = .next t ∨ perform .reset s = .next t → t.fstate = .idle ∧ t.code = .ok) ∧
    (∀ t, s.funit.Consistent → s.fstate = .active → exec .ffeed s = .next t →
      ((t.fstate, t.code) =
        if s.nulterm = true ∧ s.arg.toNat % 256 = 0 then
          if s.funit.used = 0 then (.done, .ok) else (.error, .truncated)
        else if s.funit.used = 0 ∧ bsl (s.arg.extractLsb' 0 8) = none then (.error, .invalid)
        else (.active, .ok))) ∧
    (∀ t, s.fstate = .active → exec .fend s = .next t →
      (t.fstate, t.code) = if s.funit.used = 0 then (.done, .ok) else (.error, .truncated)) ∧
    (∀ t i, s.fstate ≠ .active → i = .ffeed ∨ i = .fend → exec i s = .next t →
      t.fstate = s.fstate ∧ t.code = .sequence) ∧
    (∀ t w, perform (.write 0x08 32 w) s = .next t →
      (∀ i ∈ [.fstart, .srst, .ffeed, .fend], decodeCmd w ≠ some i) → t.fstate = s.fstate)

/-- 10_state.md R38: the write matrix, as what each command leaves unchanged. The first two clauses are not R38's: that no
command, SRST included, changes `pending` and `returned` is the model's choice (log 6, DEDUCED; the fields: logs 1 and 3). -/
def Obligations.CommandsWriteOnlyTheirRows : Prop :=
  ∀ (s t : State) (i : Instr), exec i s = .next t →
    t.pending = s.pending ∧ t.returned = s.returned ∧
    (i ≠ .srst → t.nulterm = s.nulterm ∧ t.arg = s.arg) ∧
    (i ∉ [.fstart, .ffeed, .fend, .srst] → t.fstate = s.fstate ∧ t.funit = s.funit ∧ t.fcount = s.fcount) ∧
    (i ∉ [.enc, .srst] → (∀ n, i ≠ .uload n) → t.unit = s.unit) ∧
    (i = .fstart ∨ (∃ n, n.toNat ≤ 4 ∧ i = .uload n) → t.sticky = s.sticky) ∧
    (i = .nop → t = s)

/-- 10_state.md R34 and 42_frame.md R98: host events of any kind but reset, FSTART, FFEED, FEND and SRST leave the frame
state as it is, so a frame survives them; and a CTRL write takes effect at the next FFEED. -/
def Obligations.FrameSurvivesOtherCommands : Prop :=
  (∀ (es : List HostEvent) (s t : State),
    (∀ e ∈ es, e ≠ .reset ∧ ∀ width w, e = .write 0x08 width w →
      ∀ i ∈ [.fstart, .ffeed, .fend, .srst], decodeCmd w ≠ some i) →
    performAll es s = .next t → t.fstate = s.fstate ∧ t.funit = s.funit ∧ t.fcount = s.fcount) ∧
  (∀ (s : State) (v : Word), performAll [.write 0x00 32 v, .write 0x08 32 0x7] s =
    exec .ffeed { s with nulterm := decide (v.toNat % 2 = 1) })

/-- 42_frame.md R96: once FSTATE = ERROR, FFEED and FEND give SEQUENCE and change no frame state, and nothing but FSTART,
SRST or reset leaves ERROR or changes FUNIT or FCOUNT. -/
def Obligations.FailedFrameIsTerminal : Prop :=
  (∀ (s : State) (i : Instr), s.fstate = .error → i = .ffeed ∨ i = .fend →
    exec i s = .next { s with result := 0xFFFFFFFF, code := .sequence, cpv := false, sticky := true }) ∧
  (∀ (es : List HostEvent) (s t : State), s.fstate = .error →
    (∀ e ∈ es, e ≠ .reset ∧ ∀ width w, e = .write 0x08 width w → decodeCmd w ≠ some .fstart ∧ decodeCmd w ≠ some .srst) →
    performAll es s = .next t → t.fstate = .error ∧ t.funit = s.funit ∧ t.fcount = s.fcount)

/-- 10_state.md R33: FCOUNT counts the codepoints emitted since the last FSTART, modulo 2^32; host writes are ignored. -/
def Obligations.FcountCountsEmissions : Prop :=
  State.reset.fcount = 0 ∧
  (∀ (s : State) (v : Word), perform (.write 0x1C 32 v) s = .next s) ∧
  (∀ (s t : State) (w : Word), perform (.write 0x08 32 w) s = .next t →
    t.fcount.toNat =
      if decodeCmd w = some .fstart ∨ decodeCmd w = some .srst then 0
      else if decodeCmd w = some .ffeed ∧ t.cpv = true then (s.fcount.toNat + 1) % 2 ^ 32
      else s.fcount.toNat)

/-- 10_state.md R25: after every command but NOP, CPV is 1 exactly when the command was an FFEED that completed a unit. A
unit is completed by an ASCII byte at its start or by its last announced byte (42_frame.md R94). -/
def Obligations.CpvMarksEmissions : Prop :=
  ∀ (s t : State) (w : Word), s.funit.Consistent → perform (.write 0x08 32 w) s = .next t → decodeCmd w ≠ some .nop →
    (t.cpv = true ↔
      decodeCmd w = some .ffeed ∧ s.fstate = .active ∧ ¬ (s.nulterm = true ∧ s.arg.toNat % 256 = 0) ∧
      (s.funit.used.val = 0 ∧ s.arg.toNat % 256 ≤ 0x7F ∨
        s.funit.used.val ≠ 0 ∧ s.funit.used.val + 1 = s.funit.len.val))

/-- 10_state.md R26: every command that ends with CODE ≠ OK sets STICKY; nothing clears it but SRST and reset; so a state
reached without them whose STICKY is 0 had no failure on the way. -/
def Obligations.StickyRecordsFailures : Prop :=
  (∀ (s t : State) (w : Word), perform (.write 0x08 32 w) s = .next t →
    (t.sticky = true ↔ decodeCmd w ≠ some .srst ∧
      (s.sticky = true ∨ decodeCmd w ≠ some .nop ∧ t.code ≠ .ok))) ∧
  (∀ s t : State, perform .reset s = .next t → t.sticky = false) ∧
  (∀ (es : List HostEvent) (s t : State),
    (∀ e ∈ es, e ≠ .reset ∧ ∀ width w, e = .write 0x08 width w → decodeCmd w ≠ some .srst) →
    performAll es s = .next t → t.sticky = false → s.sticky = false)

/-- 60_exceptions.md R109: the failure epilogue, all that a failure changes (FFEED's is stated for FUNIT as 10_state.md R32
says it is), and the one success that returns 0xFFFFFFFF. -/
def Obligations.FailuresReturnSentinel : Prop :=
  ∀ (s t : State) (w : Word), perform (.write 0x08 32 w) s = .next t → decodeCmd w ≠ some .nop →
    (t.code ≠ .ok → t.result = 0xFFFFFFFF ∧ t.cpv = false ∧ t.sticky = true) ∧
    (t.code ≠ .ok → s.funit.Consistent → t = { s with
      result := 0xFFFFFFFF, code := t.code, cpv := false, sticky := true,
      unit := if decodeCmd w = some .enc then ⟨⟨0, 0, 0, 0⟩, 0⟩ else s.unit,
      fstate := if (decodeCmd w = some .ffeed ∨ decodeCmd w = some .fend) ∧ t.code ≠ .sequence then .error else s.fstate }) ∧
    (t.code = .ok → t.result = 0xFFFFFFFF →
      (decodeCmd w = some .fend ∨ decodeCmd w = some .ffeed) ∧ t.fstate = .done ∧ s.fcount = 0xFFFFFFFF)

/-- 60_exceptions.md R110: the errors each command and an illegal word can end with, and when. FFEED is stated for FUNIT as
10_state.md R32 says it is. -/
def Obligations.ErrorsPerCommand : Prop :=
  (∀ (s t : State) (w : Word), decodeCmd w = none → perform (.write 0x08 32 w) s = .next t → t.code = .illegal) ∧
  ∀ (s t : State) (i : Instr), exec i s = .next t →
    (i = .fstart ∨ i = .srst ∨ (∃ n, n.toNat ≤ 4 ∧ i = .uload n) → t.code = .ok) ∧
    (i = .nop → t.code = s.code) ∧
    (i = .clsb → t.code = if bsl (s.arg.extractLsb' 0 8) = none then .invalid else .ok) ∧
    (i = .clsc ∨ i = .enc → t.code = if 0x10FFFF < s.arg.toNat then .invalid else .ok) ∧
    (i = .dec → t.code =
      match bsl s.unit.bytes.b0 with
      | none => .invalid
      | some l => if s.unit.used.val = 0 then .invalid else if s.unit.used.val < l.toNat then .truncated
          else if l.toNat < s.unit.used.val then .invalid else .ok) ∧
    (i = .ffeed → s.funit.Consistent → t.code =
      if s.fstate ≠ .active then .sequence
      else if s.nulterm = true ∧ s.arg.toNat % 256 = 0 then if s.funit.used = 0 then .ok else .truncated
      else if s.funit.used = 0 ∧ bsl (s.arg.extractLsb' 0 8) = none then .invalid else .ok) ∧
    (i = .fend → t.code =
      if s.fstate ≠ .active then .sequence else if s.funit.used = 0 then .ok else .truncated)

/-- 70_reset_and_hazards.md R128: RESULT, CODE and CPV hold the outcome of the last command other than NOP, and UNIT the
result of the last ENC or ULOAD, whatever else the host does in between. -/
def Obligations.ResultsLiveUntilNextCommand : Prop :=
  ∀ (es : List HostEvent) (s t : State), performAll es s = .next t →
    ((∀ e ∈ es, e ≠ .reset ∧ ∀ width w, e = .write 0x08 width w → decodeCmd w = some .nop) →
      t.result = s.result ∧ t.code = s.code ∧ t.cpv = s.cpv) ∧
    ((∀ e ∈ es, e ≠ .reset ∧ ∀ width w, e = .write 0x08 width w →
        decodeCmd w ≠ some .enc ∧ decodeCmd w ≠ some .srst ∧ ∀ n, decodeCmd w ≠ some (.uload n)) →
      t.unit = s.unit)

/-- 41_codec.md R87: every writer of UNIT leaves it canonical, and no other command writes it. -/
def Obligations.UnitWritersLeaveItCanonical : Prop :=
  State.reset.unit.Canonical ∧
  ∀ (s t : State) (i : Instr), exec i s = .next t →
    (i = .enc ∨ i = .srst ∨ (∃ n, n.toNat ≤ 4 ∧ i = .uload n) → t.unit.Canonical) ∧
    (s.unit.Canonical → t.unit.Canonical)

/-- 70_reset_and_hazards.md R132: the frame commands read nothing of UNIT, RESULT, CODE, CPV: two states that agree on CTRL,
ARG and the frame state answer them alike. -/
def Obligations.FrameIgnoresHostUnit : Prop :=
  ∀ (s s' t t' : State) (i : Instr), i ∈ [.fstart, .ffeed, .fend] →
    s.nulterm = s'.nulterm → s.arg = s'.arg → s.fstate = s'.fstate → s.funit = s'.funit → s.fcount = s'.fcount →
    exec i s = .next t → exec i s' = .next t' →
    t.result = t'.result ∧ t.code = t'.code ∧ t.cpv = t'.cpv ∧ t.fstate = t'.fstate ∧ t.funit = t'.funit ∧
    t.fcount = t'.fcount

/-- 10_state.md R35: FUNIT.bytes are seen by the host only through an FFEED. Two states that differ in nothing else give the
same register values now and after any command but FFEED. -/
def Obligations.HiddenBytesSeenOnlyByFfeed : Prop :=
  ∀ (s : State) (hidden : UnitBytes) (w : Word) (r : Reg),
    readReg { s with funit := { s.funit with bytes := hidden } } r = readReg s r ∧
    (decodeCmd w ≠ some .ffeed → ∃ t t', perform (.write 0x08 32 w) s = .next t ∧
      perform (.write 0x08 32 w) { s with funit := { s.funit with bytes := hidden } } = .next t' ∧
      readReg t r = readReg t' r ∧ (t' = { t with funit := t'.funit } ∧ t'.funit = { t.funit with bytes := t'.funit.bytes }))

/-- 30_encoding.md R64: each pseudo-command is the writes on its right and nothing more. That a byte operand is written
with zeros above it is the model's reading (log 12). -/
def Obligations.PseudoCommandsExpand : Prop :=
  ∀ (s : State) (b : Byte) (c v : Word) (n : BitVec 3), n.toNat ≤ 4 →
    runProgram (Pseudo.clsb b).expand s = exec .clsb { s with arg := b.setWidth 32 } ∧
    runProgram (Pseudo.clsc c).expand s = exec .clsc { s with arg := c } ∧
    runProgram (Pseudo.enc c).expand s = exec .enc { s with arg := c } ∧
    runProgram (Pseudo.uload n v).expand s = exec (.uload n) { s with arg := v } ∧
    runProgram (Pseudo.ffeed b).expand s = exec .ffeed { s with arg := b.setWidth 32 } ∧
    (Pseudo.build []).expand = [.command .fstart, .command .fend, .rd .status, .rd .result] ∧
    (∀ bs, (Pseudo.build (b :: bs)).expand = .command .fstart :: .wr .arg (b.setWidth 32) :: .command .ffeed ::
      .rd .status :: .rd .result :: (Pseudo.build bs).expand.tail)

/-! ## Invariants and frames -/

/-- The invariant holds at reset, and in every launch state (R37, R136). -/
def Obligations.ResetMeetsInvariant : Prop := State.reset.Inv ∧ ∀ s : State, s.Launched → s.Inv

/-- The invariant (10_state.md R25 to R27, R31, R32; 41_codec.md R87) is kept by every step. -/
def Obligations.StepKeepsInvariant : Prop := ∀ s t : State, s.Inv → step s = .next t → t.Inv

/-- 42_frame.md R99 (a), (b), (d) and R91, with NULTERM = 0: the BUILD of a byte string ends DONE exactly when the bytes
split into whole units; then FCOUNT is the number of units, the codepoints emitted are the units' values in order, and
these are the Decoded String. -/
def Obligations.FrameBuildsWholeUnits : Prop :=
  ∀ (s : State) (bs : List Byte), s.nulterm = false → ∃ (t : State) (readings : List Word),
    runProgram (Pseudo.build bs).expand s = .next t ∧ t.returned = s.returned ++ readings ∧
    (t.fstate = .done ↔ ∃ us : List MultibyteUnit, (∀ u ∈ us, u.Whole) ∧ bs = us.flatMap MultibyteUnit.wire) ∧
    (∀ us : List MultibyteUnit, (∀ u ∈ us, u.Whole) → bs = us.flatMap MultibyteUnit.wire →
      ∃ cs : List Word, us.map decodeUnit = cs.map Decoded.value ∧ t.fcount = BitVec.ofNat 32 us.length ∧
        decodedString bs readings t = some ⟨bs, cs, BitVec.ofNat 32 us.length⟩)

/-- 42_frame.md R99 (c): feeding the concatenated encodings of codepoints 0 to 0x10FFFF ends DONE and emits exactly those
codepoints, in order. -/
def Obligations.EncodedStreamDecodesBack : Prop :=
  ∀ (s : State) (cs : List Word), s.nulterm = false → (∀ c ∈ cs, c.toNat ≤ 0x10FFFF) →
    ∃ (t : State) (readings : List Word),
      runProgram (Pseudo.build (cs.flatMap fun c => (encodeUnit c).wire)).expand s = .next t ∧
      t.returned = s.returned ++ readings ∧ t.fstate = .done ∧ t.fcount = BitVec.ofNat 32 cs.length ∧
      emittedCodepoints readings = cs
end

