-- ==== Sys2Proof/Laws/State.lean ====
section
/-! SUPPORT. What each named update leaves in each field of the state: one lemma per field per update. -/

namespace Sys2Proof.Machine

variable (s : State)

section setNultermFields
variable (b : Bool)
@[simp] theorem State.setNulterm_nulterm : (s.setNulterm b).nulterm = b := rfl
@[simp] theorem State.setNulterm_arg : (s.setNulterm b).arg = s.arg := rfl
@[simp] theorem State.setNulterm_result : (s.setNulterm b).result = s.result := rfl
@[simp] theorem State.setNulterm_code : (s.setNulterm b).code = s.code := rfl
@[simp] theorem State.setNulterm_cpv : (s.setNulterm b).cpv = s.cpv := rfl
@[simp] theorem State.setNulterm_sticky : (s.setNulterm b).sticky = s.sticky := rfl
@[simp] theorem State.setNulterm_fstate : (s.setNulterm b).fstate = s.fstate := rfl
@[simp] theorem State.setNulterm_unit : (s.setNulterm b).unit = s.unit := rfl
@[simp] theorem State.setNulterm_funit : (s.setNulterm b).funit = s.funit := rfl
@[simp] theorem State.setNulterm_fcount : (s.setNulterm b).fcount = s.fcount := rfl
@[simp] theorem State.setNulterm_pending : (s.setNulterm b).pending = s.pending := rfl
@[simp] theorem State.setNulterm_returned : (s.setNulterm b).returned = s.returned := rfl
end setNultermFields

section setArgFields
variable (v : Word)
@[simp] theorem State.setArg_nulterm : (s.setArg v).nulterm = s.nulterm := rfl
@[simp] theorem State.setArg_arg : (s.setArg v).arg = v := rfl
@[simp] theorem State.setArg_result : (s.setArg v).result = s.result := rfl
@[simp] theorem State.setArg_code : (s.setArg v).code = s.code := rfl
@[simp] theorem State.setArg_cpv : (s.setArg v).cpv = s.cpv := rfl
@[simp] theorem State.setArg_sticky : (s.setArg v).sticky = s.sticky := rfl
@[simp] theorem State.setArg_fstate : (s.setArg v).fstate = s.fstate := rfl
@[simp] theorem State.setArg_unit : (s.setArg v).unit = s.unit := rfl
@[simp] theorem State.setArg_funit : (s.setArg v).funit = s.funit := rfl
@[simp] theorem State.setArg_fcount : (s.setArg v).fcount = s.fcount := rfl
@[simp] theorem State.setArg_pending : (s.setArg v).pending = s.pending := rfl
@[simp] theorem State.setArg_returned : (s.setArg v).returned = s.returned := rfl
end setArgFields

section setUnitFields
variable (u : MultibyteUnit)
@[simp] theorem State.setUnit_nulterm : (s.setUnit u).nulterm = s.nulterm := rfl
@[simp] theorem State.setUnit_arg : (s.setUnit u).arg = s.arg := rfl
@[simp] theorem State.setUnit_result : (s.setUnit u).result = s.result := rfl
@[simp] theorem State.setUnit_code : (s.setUnit u).code = s.code := rfl
@[simp] theorem State.setUnit_cpv : (s.setUnit u).cpv = s.cpv := rfl
@[simp] theorem State.setUnit_sticky : (s.setUnit u).sticky = s.sticky := rfl
@[simp] theorem State.setUnit_fstate : (s.setUnit u).fstate = s.fstate := rfl
@[simp] theorem State.setUnit_unit : (s.setUnit u).unit = u := rfl
@[simp] theorem State.setUnit_funit : (s.setUnit u).funit = s.funit := rfl
@[simp] theorem State.setUnit_fcount : (s.setUnit u).fcount = s.fcount := rfl
@[simp] theorem State.setUnit_pending : (s.setUnit u).pending = s.pending := rfl
@[simp] theorem State.setUnit_returned : (s.setUnit u).returned = s.returned := rfl
end setUnitFields

section setFunitFields
variable (f : FrameUnit)
@[simp] theorem State.setFunit_nulterm : (s.setFunit f).nulterm = s.nulterm := rfl
@[simp] theorem State.setFunit_arg : (s.setFunit f).arg = s.arg := rfl
@[simp] theorem State.setFunit_result : (s.setFunit f).result = s.result := rfl
@[simp] theorem State.setFunit_code : (s.setFunit f).code = s.code := rfl
@[simp] theorem State.setFunit_cpv : (s.setFunit f).cpv = s.cpv := rfl
@[simp] theorem State.setFunit_sticky : (s.setFunit f).sticky = s.sticky := rfl
@[simp] theorem State.setFunit_fstate : (s.setFunit f).fstate = s.fstate := rfl
@[simp] theorem State.setFunit_unit : (s.setFunit f).unit = s.unit := rfl
@[simp] theorem State.setFunit_funit : (s.setFunit f).funit = f := rfl
@[simp] theorem State.setFunit_fcount : (s.setFunit f).fcount = s.fcount := rfl
@[simp] theorem State.setFunit_pending : (s.setFunit f).pending = s.pending := rfl
@[simp] theorem State.setFunit_returned : (s.setFunit f).returned = s.returned := rfl
end setFunitFields

section setFstateFields
variable (x : FrameState)
@[simp] theorem State.setFstate_nulterm : (s.setFstate x).nulterm = s.nulterm := rfl
@[simp] theorem State.setFstate_arg : (s.setFstate x).arg = s.arg := rfl
@[simp] theorem State.setFstate_result : (s.setFstate x).result = s.result := rfl
@[simp] theorem State.setFstate_code : (s.setFstate x).code = s.code := rfl
@[simp] theorem State.setFstate_cpv : (s.setFstate x).cpv = s.cpv := rfl
@[simp] theorem State.setFstate_sticky : (s.setFstate x).sticky = s.sticky := rfl
@[simp] theorem State.setFstate_fstate : (s.setFstate x).fstate = x := rfl
@[simp] theorem State.setFstate_unit : (s.setFstate x).unit = s.unit := rfl
@[simp] theorem State.setFstate_funit : (s.setFstate x).funit = s.funit := rfl
@[simp] theorem State.setFstate_fcount : (s.setFstate x).fcount = s.fcount := rfl
@[simp] theorem State.setFstate_pending : (s.setFstate x).pending = s.pending := rfl
@[simp] theorem State.setFstate_returned : (s.setFstate x).returned = s.returned := rfl
end setFstateFields

section setFcountFields
variable (v : Word)
@[simp] theorem State.setFcount_nulterm : (s.setFcount v).nulterm = s.nulterm := rfl
@[simp] theorem State.setFcount_arg : (s.setFcount v).arg = s.arg := rfl
@[simp] theorem State.setFcount_result : (s.setFcount v).result = s.result := rfl
@[simp] theorem State.setFcount_code : (s.setFcount v).code = s.code := rfl
@[simp] theorem State.setFcount_cpv : (s.setFcount v).cpv = s.cpv := rfl
@[simp] theorem State.setFcount_sticky : (s.setFcount v).sticky = s.sticky := rfl
@[simp] theorem State.setFcount_fstate : (s.setFcount v).fstate = s.fstate := rfl
@[simp] theorem State.setFcount_unit : (s.setFcount v).unit = s.unit := rfl
@[simp] theorem State.setFcount_funit : (s.setFcount v).funit = s.funit := rfl
@[simp] theorem State.setFcount_fcount : (s.setFcount v).fcount = v := rfl
@[simp] theorem State.setFcount_pending : (s.setFcount v).pending = s.pending := rfl
@[simp] theorem State.setFcount_returned : (s.setFcount v).returned = s.returned := rfl
end setFcountFields

section handOutFields
variable (v : Word)
@[simp] theorem State.handOut_nulterm : (s.handOut v).nulterm = s.nulterm := rfl
@[simp] theorem State.handOut_arg : (s.handOut v).arg = s.arg := rfl
@[simp] theorem State.handOut_result : (s.handOut v).result = s.result := rfl
@[simp] theorem State.handOut_code : (s.handOut v).code = s.code := rfl
@[simp] theorem State.handOut_cpv : (s.handOut v).cpv = s.cpv := rfl
@[simp] theorem State.handOut_sticky : (s.handOut v).sticky = s.sticky := rfl
@[simp] theorem State.handOut_fstate : (s.handOut v).fstate = s.fstate := rfl
@[simp] theorem State.handOut_unit : (s.handOut v).unit = s.unit := rfl
@[simp] theorem State.handOut_funit : (s.handOut v).funit = s.funit := rfl
@[simp] theorem State.handOut_fcount : (s.handOut v).fcount = s.fcount := rfl
@[simp] theorem State.handOut_pending : (s.handOut v).pending = s.pending := rfl
@[simp] theorem State.handOut_returned : (s.handOut v).returned = s.returned ++ [v] := rfl
end handOutFields

section finishFields
variable (r : Word)
@[simp] theorem finish_nulterm : (finish r s).nulterm = s.nulterm := rfl
@[simp] theorem finish_arg : (finish r s).arg = s.arg := rfl
@[simp] theorem finish_result : (finish r s).result = r := rfl
@[simp] theorem finish_code : (finish r s).code = .ok := rfl
@[simp] theorem finish_cpv : (finish r s).cpv = false := rfl
@[simp] theorem finish_sticky : (finish r s).sticky = s.sticky := rfl
@[simp] theorem finish_fstate : (finish r s).fstate = s.fstate := rfl
@[simp] theorem finish_unit : (finish r s).unit = s.unit := rfl
@[simp] theorem finish_funit : (finish r s).funit = s.funit := rfl
@[simp] theorem finish_fcount : (finish r s).fcount = s.fcount := rfl
@[simp] theorem finish_pending : (finish r s).pending = s.pending := rfl
@[simp] theorem finish_returned : (finish r s).returned = s.returned := rfl
end finishFields

section emitFields
variable (c : Word)
@[simp] theorem emit_nulterm : (emit c s).nulterm = s.nulterm := rfl
@[simp] theorem emit_arg : (emit c s).arg = s.arg := rfl
@[simp] theorem emit_result : (emit c s).result = c := rfl
@[simp] theorem emit_code : (emit c s).code = .ok := rfl
@[simp] theorem emit_cpv : (emit c s).cpv = true := rfl
@[simp] theorem emit_sticky : (emit c s).sticky = s.sticky := rfl
@[simp] theorem emit_fstate : (emit c s).fstate = s.fstate := rfl
@[simp] theorem emit_unit : (emit c s).unit = s.unit := rfl
@[simp] theorem emit_funit : (emit c s).funit = s.funit := rfl
@[simp] theorem emit_fcount : (emit c s).fcount = s.fcount := rfl
@[simp] theorem emit_pending : (emit c s).pending = s.pending := rfl
@[simp] theorem emit_returned : (emit c s).returned = s.returned := rfl
end emitFields

section raiseFields
variable (c : Code)
@[simp] theorem raise_nulterm : (raise c s).nulterm = s.nulterm := rfl
@[simp] theorem raise_arg : (raise c s).arg = s.arg := rfl
@[simp] theorem raise_result : (raise c s).result = sentinel := rfl
@[simp] theorem raise_code : (raise c s).code = c := rfl
@[simp] theorem raise_cpv : (raise c s).cpv = false := rfl
@[simp] theorem raise_sticky : (raise c s).sticky = true := rfl
@[simp] theorem raise_fstate : (raise c s).fstate = s.fstate := rfl
@[simp] theorem raise_unit : (raise c s).unit = s.unit := rfl
@[simp] theorem raise_funit : (raise c s).funit = s.funit := rfl
@[simp] theorem raise_fcount : (raise c s).fcount = s.fcount := rfl
@[simp] theorem raise_pending : (raise c s).pending = s.pending := rfl
@[simp] theorem raise_returned : (raise c s).returned = s.returned := rfl
end raiseFields

section resetBlockFields
@[simp] theorem resetBlock_nulterm : (resetBlock s).nulterm = false := rfl
@[simp] theorem resetBlock_arg : (resetBlock s).arg = 0 := rfl
@[simp] theorem resetBlock_result : (resetBlock s).result = 0 := rfl
@[simp] theorem resetBlock_code : (resetBlock s).code = .ok := rfl
@[simp] theorem resetBlock_cpv : (resetBlock s).cpv = false := rfl
@[simp] theorem resetBlock_sticky : (resetBlock s).sticky = false := rfl
@[simp] theorem resetBlock_fstate : (resetBlock s).fstate = .idle := rfl
@[simp] theorem resetBlock_unit : (resetBlock s).unit = .empty := rfl
@[simp] theorem resetBlock_funit : (resetBlock s).funit = .empty := rfl
@[simp] theorem resetBlock_fcount : (resetBlock s).fcount = 0 := rfl
@[simp] theorem resetBlock_pending : (resetBlock s).pending = s.pending := rfl
@[simp] theorem resetBlock_returned : (resetBlock s).returned = s.returned := rfl
end resetBlockFields

end Sys2Proof.Machine
end

