-- ==== Sys2Proof/Laws/Ops.lean ====
section
/-! SUPPORT. One lemma per shared operation that says what it does, for the proofs to cite instead of unfolding it. -/

namespace Sys2Proof.Machine

section Bytes

/-- After a reset every register reads as in the reset state, whatever the host has pending (10_state.md R37). -/
theorem readReg_resetBlock (s : State) (r : Reg) : readReg (resetBlock s) r = readReg State.reset r := by cases r <;> rfl

/-- UNIT_BYTES as a number: byte i weighs 2^(8i) (10_state.md R29). -/
theorem UnitBytes.pack_toNat (u : UnitBytes) :
    u.pack.toNat = u.b0.toNat + 2 ^ 8 * u.b1.toNat + 2 ^ 16 * u.b2.toNat + 2 ^ 24 * u.b3.toNat := by
  have h0 := u.b0.isLt; have h1 := u.b1.isLt; have h2 := u.b2.isLt; have h3 := u.b3.isLt
  rw [show u.pack.toNat = (u.b3 ++ u.b2 ++ u.b1 ++ u.b0).toNat from rfl]
  simp only [BitVec.toNat_append]
  rw [← Nat.shiftLeft_add_eq_or_of_lt (by omega), ← Nat.shiftLeft_add_eq_or_of_lt (by omega),
    ← Nat.shiftLeft_add_eq_or_of_lt (by omega)]
  simp only [Nat.shiftLeft_eq]
  omega

/-- STATUS as a number: each field at its place (10_state.md R23). -/
theorem statusWord_toNat (s : State) : (statusWord s).toNat =
    s.code.bits.toNat + 8 * s.cpv.toNat + 16 * s.sticky.toNat + 32 * s.fstate.bits.toNat + 128 * s.funit.used.val
      + 1024 * s.funit.len.val := by
  unfold statusWord fusedBits flenBits
  generalize s.code = a
  generalize s.cpv = b
  generalize s.sticky = c
  generalize s.fstate = d
  generalize s.funit.used = e
  generalize s.funit.len = f
  cases a <;> cases b <;> cases c <;> cases d <;> fin_cases e <;> fin_cases f <;> rfl

@[simp] theorem UnitBytes.get_ofFn (f : Nat → Byte) (i : Fin 4) : (UnitBytes.ofFn f).get i.val = f i.val := by
  fin_cases i <;> rfl

theorem UnitBytes.get_set (u : UnitBytes) (i j : Fin 4) (b : Byte) :
    (u.set i.val b).get j.val = if j = i then b else u.get j.val := by
  fin_cases i <;> fin_cases j <;> rfl

theorem UnitBytes.ext_get {u v : UnitBytes} (h : ∀ i : Fin 4, u.get i.val = v.get i.val) : u = v := by
  cases u; cases v
  have h0 := h 0; have h1 := h 1; have h2 := h 2; have h3 := h 3
  simp_all [UnitBytes.get]

theorem UnitBytes.pack_byte (u : UnitBytes) (i : Fin 4) : u.pack.extractLsb' (8 * i.val) 8 = u.get i.val := by
  cases u
  fin_cases i <;> (apply BitVec.eq_of_getElem_eq; intro k hk; simp [UnitBytes.pack, UnitBytes.get])
  all_goals grind

end Bytes

section Arms

variable (s : State)

@[simp] theorem exec_nop : exec .nop s = .next s := rfl
@[simp] theorem exec_clsb : exec .clsb s = .next (finishLength (bsl (byteOperand s)) s) := rfl
@[simp] theorem exec_clsc : exec .clsc s = .next (finishLength (csl (codepointOperand s)) s) := rfl
@[simp] theorem exec_enc : exec .enc s =
    .next (finishEncoded (encodeUnit (codepointOperand s)) (s.setUnit (encodeUnit (codepointOperand s)))) := rfl
@[simp] theorem exec_dec : exec .dec s = .next (finishDecoded (decodeUnit (unitOperand s)) s) := rfl
@[simp] theorem exec_uload (n : BitVec 3) : exec (.uload n) s = .next (loadUnit n s) := rfl
@[simp] theorem exec_fstart : exec .fstart s = .next (finish 0 (((s.setFunit .empty).setFcount 0).setFstate .active)) := rfl
@[simp] theorem exec_ffeed : exec .ffeed s = .next (feed (byteOperand s) s) := rfl
@[simp] theorem exec_fend : exec .fend s = .next (closeFrame s) := rfl
@[simp] theorem exec_srst : exec .srst s = .next (resetBlock s) := rfl

end Arms

section Window

@[simp] theorem accessed_offset (r : Reg) : accessed r.offset 32 = .ok r := by cases r <;> decide

/-- An access that reaches a register is one the host may issue, and reaches the register at its offset. -/
theorem accessed_ok {off : Int} {width : Nat} {r : Reg} (h : accessed off width = .ok r) : width = 32 ∧ off = r.offset := by
  unfold accessed at h
  split at h
  · cases h
  · split at h
    · cases h
    · rename_i hw hr
      obtain ⟨n, rfl⟩ : ∃ n : Nat, off = n := ⟨off.toNat, by omega⟩
      simp only [Int.toNat_natCast] at h
      refine ⟨by omega, ?_⟩
      have hn : n < 32 := by simp only [Config.windowBytes] at hr; omega
      interval_cases n <;> simp [Reg.atOffset] at h <;> subst h <;> rfl

@[simp] theorem perform_hostRead (r : Reg) (s : State) : perform (hostRead r) s = .next (s.handOut (readReg s r)) := by
  simp [perform, hostRead]

@[simp] theorem perform_hostWrite (r : Reg) (v : Word) (s : State) : perform (hostWrite r v) s = performWrite r v s := by
  simp [perform, hostWrite]

@[simp] theorem performWrite_cmd (w : Word) (s : State) : performWrite .cmd w s = stepCmd w s := rfl

/-- A CMD write of a legal word is the execution of its command. -/
theorem stepCmd_of_decode {w : Word} {i : Instr} (h : decodeCmd w = some i) (s : State) : stepCmd w s = exec i s := by
  simp [stepCmd, h]

/-- A CMD write of any other word is the ILLEGAL outcome. -/
theorem stepCmd_of_illegal {w : Word} (h : decodeCmd w = none) (s : State) : stepCmd w s = .next (raise .illegal s) := by
  simp [stepCmd, h, illegalWord]

theorem performAll_append (xs ys : List HostEvent) (s : State) :
    performAll (xs ++ ys) s = match performAll xs s with
      | .next t => performAll ys t
      | .fault r => .fault r
      | .refused r => .refused r := by
  induction xs generalizing s with
  | nil => rfl
  | cons e xs ih =>
    simp only [List.cons_append, performAll]
    cases perform e s with
    | next t => exact ih t
    | fault r => rfl
    | refused r => rfl

end Window

section Fields

@[simp] theorem opField_packFields (n : BitVec 3) (op : BitVec 4) : opField (packFields n op) = op := by
  revert n op; decide

@[simp] theorem countField_packFields (n : BitVec 3) (op : BitVec 4) : countField (packFields n op) = n := by
  revert n op; decide

@[simp] theorem reservedField_packFields (n : BitVec 3) (op : BitVec 4) : reservedField (packFields n op) = 0 := by
  revert n op; decide

/-- The three fields of R53 make up the word. -/
theorem packFields_of_reserved {w : Word} (h : reservedField w = 0) : packFields (countField w) (opField w) = w := by
  unfold packFields countField opField
  rw [show (0#25) = reservedField w from h.symm]
  apply BitVec.eq_of_getElem_eq
  intro k hk
  simp only [reservedField, BitVec.getElem_append, BitVec.getElem_extractLsb']
  grind

end Fields

section Classifiers

/-- What `bsl` answers, byte by byte. -/
theorem bsl_ranges (b : Byte) : bsl b =
    if b.toNat < 0x80 then some .one else if b.toNat < 0xC0 then none else if b.toNat < 0xE0 then some .two
    else if b.toNat < 0xF0 then some .three else if b.toNat < 0xF8 then some .four else none := by
  revert b; decide

/-- Everything `finishLength` can do. -/
theorem finishLength_cases (l : Option Length) (s : State) :
    (l = none ∧ finishLength l s = raise .invalid s) ∨
    (∃ k, l = some k ∧ finishLength l s = finish (BitVec.ofNat 32 k.toNat) s) := by
  cases l with
  | none => exact .inl ⟨rfl, rfl⟩
  | some k => exact .inr ⟨k, rfl, rfl⟩

/-- What `csl` answers, band by band. -/
theorem csl_bands (c : Word) : csl c =
    if c.toNat < 0x80 then some .one else if c.toNat < 0x800 then some .two else if c.toNat < 0x10000 then some .three
    else if c.toNat < 0x110000 then some .four else none := by
  have h (i : Fin 5) (j k : Nat) (hj : (row i).rangeStart.toNat = j) (hk : (row i).rangeEnd.toNat = k) :
      inRange c i = true ↔ j ≤ c.toNat ∧ c.toNat ≤ k := by simp [inRange, hj, hk]
  have h1 := h 1 0x0 0x7F rfl rfl
  have h2 := h 2 0x80 0x7FF rfl rfl
  have h3 := h 3 0x800 0xFFFF rfl rfl
  have h4 := h 4 0x10000 0x10FFFF rfl rfl
  unfold csl
  split_ifs with c1 c2 c3 c4
  · simp [List.find?, h1.mpr ⟨by omega, by omega⟩, Length.ofIndex?]
  · simp [List.find?, mt h1.mp (by omega), h2.mpr ⟨by omega, by omega⟩, Length.ofIndex?]
  · simp [List.find?, mt h1.mp (by omega), mt h2.mp (by omega), h3.mpr ⟨by omega, by omega⟩, Length.ofIndex?]
  · simp [List.find?, mt h1.mp (by omega), mt h2.mp (by omega), mt h3.mp (by omega), h4.mpr ⟨by omega, by omega⟩,
      Length.ofIndex?]
  · simp [List.find?, mt h1.mp (by omega), mt h2.mp (by omega), mt h3.mp (by omega), mt h4.mp (by omega)]

end Classifiers

end Sys2Proof.Machine
end

