-- ==== Sys2Proof/Laws/Codec.lean ====
section
/-! SUPPORT. What the codec's functions compute, as numbers, and everything its commands can do. -/

namespace Sys2Proof.Machine

/-- `zext_32` of R9 keeps the value. -/
@[simp] theorem zext32_toNat (b : Byte) : (zext32 b).toNat = b.toNat := by
  simp [zext32, BitVec.toNat_setWidth]; omega

@[simp] theorem Length.toFin_val (l : Length) : l.toFin.val = l.toNat := by cases l <;> rfl

/-- Masking with a payload mask keeps the low payload bits (10_state.md R18). -/
theorem and_payloadMask_toNat (x : Byte) : (x &&& 0x3F#8).toNat = x.toNat % 64 ∧ (x &&& 0x1F#8).toNat = x.toNat % 32 ∧ (x &&& 0x0F#8).toNat = x.toNat % 16 ∧ (x &&& 0x07#8).toNat = x.toNat % 8 ∧ (x &&& 0x7F#8).toNat = x.toNat % 128 := by
  revert x; decide

/-- A lead pattern above the payload bits adds. -/
theorem or_leadPattern_toNat (x : Byte) : (x.toNat < 64 → (x ||| 0x80#8).toNat = 128 + x.toNat) ∧ (x.toNat < 32 → (x ||| 0xC0#8).toNat = 0xC0 + x.toNat) ∧ (x.toNat < 16 → (x ||| 0xE0#8).toNat = 0xE0 + x.toNat) ∧ (x.toNat < 8 → (x ||| 0xF0#8).toNat = 0xF0 + x.toNat) := by
  revert x; decide

/-- A continuation byte of an encoding as a number: 0x80 and the next six bits (30_encoding.md R67). -/
theorem encodeContinuation_toNat (c : Word) (l : Length) (k : Nat) :
    (encodeContinuation c l k).toNat = 0x80 + c.toNat / 2 ^ (6 * (l.toNat - 1 - k)) % 64 := by
  unfold encodeContinuation
  generalize hx : (c >>> (6 * (l.toNat - 1 - k))).setWidth 8 = x
  have h : x.toNat = c.toNat / 2 ^ (6 * (l.toNat - 1 - k)) % 256 := by
    rw [← hx]; simp [Nat.shiftRight_eq_div_pow]
  have := (and_payloadMask_toNat x).1
  rw [show (continuationRow.payloadMask) = 0x3F#8 from rfl, show (continuationRow.leadPattern) = 0x80#8 from rfl]
  rw [(or_leadPattern_toNat _).1 (by omega), this, h]; omega

/-- The lead byte of an encoding as a number: the row's pattern and the top payload bits (R67). -/
theorem encodeLead_toNat {c : Word} {l : Length} : csl c = some l → (encodeLead c l).toNat =
    match l with
    | .one => c.toNat
    | .two => 0xC0 + c.toNat / 64
    | .three => 0xE0 + c.toNat / 4096
    | .four => 0xF0 + c.toNat / 262144 := by
  intro h
  rw [csl_bands] at h
  unfold encodeLead
  generalize hx : (c >>> (6 * (l.toNat - 1))).setWidth 8 = x
  have hn : x.toNat = c.toNat / 2 ^ (6 * (l.toNat - 1)) % 256 := by
    rw [← hx]; simp [Nat.shiftRight_eq_div_pow]
  obtain ⟨-, a1, a2, a3, a4⟩ := and_payloadMask_toNat x
  split_ifs at h <;> cases h <;> simp only [Length.toNat] at hn ⊢
  · rw [show (leadRow .one).payloadMask = 0x7F#8 from rfl, show (leadRow .one).leadPattern = 0x00#8 from rfl]
    simp at *; omega
  · rw [show (leadRow .two).payloadMask = 0x1F#8 from rfl, show (leadRow .two).leadPattern = 0xC0#8 from rfl]
    rw [(or_leadPattern_toNat _).2.1 (by omega), a1, hn]; omega
  · rw [show (leadRow .three).payloadMask = 0x0F#8 from rfl, show (leadRow .three).leadPattern = 0xE0#8 from rfl]
    rw [(or_leadPattern_toNat _).2.2.1 (by omega), a2, hn]; omega
  · rw [show (leadRow .four).payloadMask = 0x07#8 from rfl, show (leadRow .four).leadPattern = 0xF0#8 from rfl]
    rw [(or_leadPattern_toNat _).2.2.2 (by omega), a3, hn]; omega

/-- The lead byte's payload in position, as a number (41_codec.md R80, step 2). -/
theorem leadPayload_toNat (u : UnitBytes) (l : Length) : (leadPayload u l).toNat = (u.b0.toNat % (2 ^ (leadRow l).payloadBits)) * 2 ^ (6 * (l.toNat - 1)) := by
  obtain ⟨a0, a1, a2, a3, a4⟩ := and_payloadMask_toNat u.b0
  unfold leadPayload
  cases l <;> simp only [BitVec.toNat_shiftLeft, zext32_toNat, Length.toNat, Nat.shiftLeft_eq]
  · rw [show (leadRow .one).payloadMask = 0x7F#8 from rfl, show u.get 0 = u.b0 from rfl, a4]
    simp [leadRow, row, Length.toFin]; omega
  · rw [show (leadRow .two).payloadMask = 0x1F#8 from rfl, show u.get 0 = u.b0 from rfl, a1]
    simp [leadRow, row, Length.toFin]; omega
  · rw [show (leadRow .three).payloadMask = 0x0F#8 from rfl, show u.get 0 = u.b0 from rfl, a2]
    simp [leadRow, row, Length.toFin]; omega
  · rw [show (leadRow .four).payloadMask = 0x07#8 from rfl, show u.get 0 = u.b0 from rfl, a3]
    simp [leadRow, row, Length.toFin]; omega

/-- Byte k's payload in position, as a number (R80, step 3). -/
theorem continuationPayload_toNat (u : UnitBytes) (l : Length) (k : Nat) : (continuationPayload u l k).toNat = ((u.get k).toNat % 64) * 2 ^ (6 * (l.toNat - 1 - k)) := by
  unfold continuationPayload
  rw [BitVec.toNat_shiftLeft, zext32_toNat, show continuationRow.payloadMask = 0x3F#8 from rfl, (and_payloadMask_toNat _).1, Nat.shiftLeft_eq]
  have : (2:Nat) ^ (6 * (l.toNat - 1 - k)) ≤ 2 ^ 18 := Nat.pow_le_pow_right (by omega) (by cases l <;> simp [Length.toNat] <;> omega)
  have h2 : (u.get k).toNat % 64 < 64 := by omega
  apply Nat.mod_eq_of_lt
  calc _ ≤ 64 * 2 ^ 18 := Nat.mul_le_mul (by omega) this
    _ < _ := by norm_num

/-- Fields that do not overlap add. -/
theorem or_toNat_of_disjoint (x y : Word) (a n : Nat) (hx : x.toNat = a * 2 ^ n) (hy : y.toNat < 2 ^ n) : (x ||| y).toNat = x.toNat + y.toNat := by
  rw [BitVec.toNat_or, hx, ← Nat.shiftLeft_eq, Nat.shiftLeft_add_eq_or_of_lt hy]

/-- The value a unit's bytes assemble to, as a number (R67, R80). -/
theorem assemblePayload_toNat (u : UnitBytes) (l : Length) : (assemblePayload u l).toNat =
    match l with
    | .one => u.b0.toNat % 128
    | .two => u.b0.toNat % 32 * 64 + u.b1.toNat % 64
    | .three => u.b0.toNat % 16 * 4096 + u.b1.toNat % 64 * 64 + u.b2.toNat % 64
    | .four => u.b0.toNat % 8 * 262144 + u.b1.toNat % 64 * 4096 + u.b2.toNat % 64 * 64 + u.b3.toNat % 64 := by
  have hl := leadPayload_toNat u l
  have h1 := continuationPayload_toNat u l 1
  have h2 := continuationPayload_toNat u l 2
  have h3 := continuationPayload_toNat u l 3
  have g1 : (u.get 1) = u.b1 := rfl
  have g2 : (u.get 2) = u.b2 := rfl
  have g3 : (u.get 3) = u.b3 := rfl
  rw [g1] at h1; rw [g2] at h2; rw [g3] at h3
  cases l
  · simpa [assemblePayload, Length.toNat, leadRow, row, Length.toFin, List.range'] using hl
  · simp [Length.toNat, leadRow, row, Length.toFin] at hl h1
    show (leadPayload u .two ||| continuationPayload u .two 1).toNat = _
    rw [or_toNat_of_disjoint _ _ (u.b0.toNat % 32) 6 (by omega) (by omega)]
    dsimp only
    omega
  · simp [Length.toNat, leadRow, row, Length.toFin] at hl h1 h2
    show ((leadPayload u .three ||| continuationPayload u .three 1) ||| continuationPayload u .three 2).toNat = _
    have e1 := or_toNat_of_disjoint (leadPayload u .three) (continuationPayload u .three 1) (u.b0.toNat % 16) 12 (by omega) (by omega)
    rw [or_toNat_of_disjoint _ _ (u.b0.toNat % 16 * 64 + u.b1.toNat % 64) 6 (by omega) (by omega)]
    dsimp only
    omega
  · simp [Length.toNat, leadRow, row, Length.toFin] at hl h1 h2 h3
    show (((leadPayload u .four ||| continuationPayload u .four 1) ||| continuationPayload u .four 2) ||| continuationPayload u .four 3).toNat = _
    have e1 := or_toNat_of_disjoint (leadPayload u .four) (continuationPayload u .four 1) (u.b0.toNat % 8) 18 (by omega) (by omega)
    have e2 := or_toNat_of_disjoint (leadPayload u .four ||| continuationPayload u .four 1) (continuationPayload u .four 2) (u.b0.toNat % 8 * 64 + u.b1.toNat % 64) 12 (by omega) (by omega)
    rw [or_toNat_of_disjoint _ _ ((u.b0.toNat % 8 * 64 + u.b1.toNat % 64) * 64 + u.b2.toNat % 64) 6 (by omega) (by omega)]
    dsimp only
    omega

/-- Everything `encodeUnit` can answer. -/
theorem encodeUnit_cases (c : Word) :
    (csl c = none ∧ encodeUnit c = .empty) ∨
    (∃ l, csl c = some l ∧ encodeUnit c = ⟨.ofFn (encodeByte c l), l.toFin⟩) := by
  unfold encodeUnit
  cases h : csl c with
  | none => exact .inl ⟨rfl, rfl⟩
  | some l => exact .inr ⟨l, rfl, rfl⟩

/-- Everything `decodeUnit` can answer, in the order of its tests. -/
theorem decodeUnit_cases (u : MultibyteUnit) :
    (u.used.val = 0 ∧ decodeUnit u = .invalid) ∨
    (u.used.val ≠ 0 ∧ bsl (u.bytes.get 0) = none ∧ decodeUnit u = .invalid) ∨
    (∃ l, u.used.val ≠ 0 ∧ bsl (u.bytes.get 0) = some l ∧ u.used.val < l.toNat ∧ decodeUnit u = .truncated) ∨
    (∃ l, u.used.val ≠ 0 ∧ bsl (u.bytes.get 0) = some l ∧ l.toNat < u.used.val ∧ decodeUnit u = .invalid) ∨
    (∃ l, bsl (u.bytes.get 0) = some l ∧ u.used = l.toFin ∧ decodeUnit u = .value (assemblePayload u.bytes l)) := by
  unfold decodeUnit
  by_cases h0 : u.used.val = 0
  · exact .inl ⟨h0, by simp [h0]⟩
  simp only [h0, if_false]
  cases hb : bsl (u.bytes.get 0) with
  | none => exact .inr (.inl ⟨h0, rfl, rfl⟩)
  | some l =>
    simp only
    split_ifs with h1 h2
    · exact .inr (.inr (.inl ⟨l, h0, rfl, h1, rfl⟩))
    · exact .inr (.inr (.inr (.inl ⟨l, h0, rfl, h2, rfl⟩)))
    · exact .inr (.inr (.inr (.inr ⟨l, rfl, Fin.ext (by simp; omega), rfl⟩)))

/-- A unit as long as its lead byte announces decodes. -/
theorem decodeUnit_of_whole {u : MultibyteUnit} {l : Length} (hl : bsl (u.bytes.get 0) = some l) (hu : u.used = l.toFin) :
    decodeUnit u = .value (assemblePayload u.bytes l) := by
  unfold decodeUnit
  rw [hl, hu]
  cases l <;> simp [Length.toNat, Length.toFin]

/-- Everything `finishEncoded` can do. -/
theorem finishEncoded_cases (u : MultibyteUnit) (s : State) :
    (u.used.val = 0 ∧ finishEncoded u s = raise .invalid s) ∨
    (u.used.val ≠ 0 ∧ finishEncoded u s = finish (BitVec.ofNat 32 u.used.val) s) := by
  unfold finishEncoded
  split
  · exact .inl ⟨‹_›, rfl⟩
  · exact .inr ⟨‹_›, rfl⟩

/-- Everything `finishDecoded` can do. -/
theorem finishDecoded_cases (d : Decoded) (s : State) :
    (d = .invalid ∧ finishDecoded d s = raise .invalid s) ∨ (d = .truncated ∧ finishDecoded d s = raise .truncated s) ∨
    (∃ c, d = .value c ∧ finishDecoded d s = finish c s) := by
  cases d with
  | invalid => exact .inl ⟨rfl, rfl⟩
  | truncated => exact .inr (.inl ⟨rfl, rfl⟩)
  | value c => exact .inr (.inr ⟨c, rfl, rfl⟩)

/-- Everything ULOAD can do. -/
theorem loadUnit_cases (n : BitVec 3) (s : State) :
    (∃ h : n.toNat < 5, loadUnit n s = finish (BitVec.ofNat 32 n.toNat) (s.setUnit (loadedUnit s ⟨n.toNat, h⟩))) ∨
    (5 ≤ n.toNat ∧ loadUnit n s = raise .illegal s) := by
  unfold loadUnit
  split
  · exact .inl ⟨‹_›, rfl⟩
  · exact .inr ⟨by omega, rfl⟩

end Sys2Proof.Machine
end

