-- ==== Sys2Proof/Laws/Frame.lean ====
section
/-! SUPPORT. Everything the frame assembler's operations can do. -/

namespace Sys2Proof.Machine

/-- Everything `frameEnd` can do. -/
theorem frameEnd_cases (s : State) :
    (s.funit.used.val ≠ 0 ∧ frameEnd s = raise .truncated (s.setFstate .error)) ∨
    (s.funit.used.val = 0 ∧ frameEnd s = finish s.fcount (s.setFstate .done)) := by
  unfold frameEnd
  split
  · exact .inl ⟨‹_›, rfl⟩
  · exact .inr ⟨by omega, rfl⟩

/-- Everything FEND can do. -/
theorem closeFrame_cases (s : State) :
    (s.fstate ≠ .active ∧ closeFrame s = raise .sequence s) ∨ (s.fstate = .active ∧ closeFrame s = frameEnd s) := by
  unfold closeFrame
  split
  · exact .inl ⟨‹_›, rfl⟩
  · exact .inr ⟨by simp_all, rfl⟩

/-- Everything `emitDecoded` can do. -/
theorem emitDecoded_cases (u : MultibyteUnit) (s : State) :
    (∃ c, decodeUnit u = .value c ∧ emitDecoded u s = emit c (s.setFcount (s.fcount + 1))) ∨
    (decodeUnit u = .invalid ∧ emitDecoded u s = raise .invalid s) ∨
    (decodeUnit u = .truncated ∧ emitDecoded u s = raise .truncated s) := by
  unfold emitDecoded
  cases h : decodeUnit u with
  | value c => exact .inl ⟨c, rfl, rfl⟩
  | invalid => exact .inr (.inl ⟨rfl, rfl⟩)
  | truncated => exact .inr (.inr ⟨rfl, rfl⟩)

/-- Everything a byte at the start of a unit can do (42_frame.md R94). -/
theorem feedLead_cases (b : Byte) (s : State) :
    (bsl b = none ∧ feedLead b s = raise .invalid (s.setFstate .error)) ∨
    (bsl b = some .one ∧ feedLead b s = emit (zext32 b) (s.setFcount (s.fcount + 1))) ∨
    (∃ l, bsl b = some l ∧ l ≠ .one ∧ feedLead b s = finish 0 (s.setFunit ⟨s.funit.bytes.set 0 b, 1, l.toFin⟩)) := by
  unfold feedLead
  cases h : bsl b with
  | none => exact .inl ⟨rfl, rfl⟩
  | some l =>
    cases l
    · refine .inr (.inl ⟨rfl, ?_⟩)
      have hd : decodeUnit ⟨⟨b, 0, 0, 0⟩, 1⟩ = .value (zext32 b) := by
        rw [decodeUnit_of_whole (u := ⟨⟨b, 0, 0, 0⟩, 1⟩) (l := .one) h rfl]
        congr 1
        apply BitVec.eq_of_toNat_eq
        rw [assemblePayload_toNat, zext32_toNat]
        rw [bsl_ranges] at h
        dsimp only
        split_ifs at h with h1 <;> first | exact Nat.mod_eq_of_lt h1 | cases h
      simp only [emitDecoded, hd]
    all_goals exact .inr (.inr ⟨_, rfl, by decide, rfl⟩)

/-- Everything a byte inside a unit can do. -/
theorem feedContinuation_cases (b : Byte) (s : State) :
    (s.funit.used.val + 1 = s.funit.len.val ∧
      feedContinuation b s = emitDecoded ⟨filledBytes b s, s.funit.used.succ⟩ (s.setFunit .empty)) ∨
    (s.funit.used.val + 1 ≠ s.funit.len.val ∧
      feedContinuation b s =
        finish 0 (s.setFunit ⟨filledBytes b s, Fin.ofNat 4 (s.funit.used.val + 1), s.funit.len⟩)) := by
  unfold feedContinuation
  split
  · exact .inl ⟨‹_›, rfl⟩
  · exact .inr ⟨‹_›, rfl⟩

/-- Everything FFEED can do, in the order of its tests. -/
theorem feed_cases (b : Byte) (s : State) :
    (s.fstate ≠ .active ∧ feed b s = raise .sequence s) ∨
    (s.fstate = .active ∧ (s.nulterm = true ∧ b = 0) ∧ feed b s = frameEnd s) ∨
    (s.fstate = .active ∧ ¬ (s.nulterm = true ∧ b = 0) ∧ s.funit.used.val = 0 ∧ feed b s = feedLead b s) ∨
    (s.fstate = .active ∧ ¬ (s.nulterm = true ∧ b = 0) ∧ s.funit.used.val ≠ 0 ∧ feed b s = feedContinuation b s) := by
  unfold feed
  split_ifs with h1 h2 h3
  · exact .inl ⟨h1, rfl⟩
  · exact .inr (.inl ⟨by simpa using h1, h2, rfl⟩)
  · exact .inr (.inr (.inl ⟨by simpa using h1, h2, h3, rfl⟩))
  · exact .inr (.inr (.inr ⟨by simpa using h1, h2, h3, rfl⟩))

/-- Every outcome of FFEED, with what it holds under (R89, R94). The last but one is ruled out by 10_state.md R32. -/
theorem feed_outcomes (b : Byte) (s : State) :
    (s.fstate ≠ .active ∧ feed b s = raise .sequence s) ∨
    (s.fstate = .active ∧ (s.nulterm = true ∧ b = 0) ∧ s.funit.used.val ≠ 0 ∧
      feed b s = raise .truncated (s.setFstate .error)) ∨
    (s.fstate = .active ∧ (s.nulterm = true ∧ b = 0) ∧ s.funit.used.val = 0 ∧
      feed b s = finish s.fcount (s.setFstate .done)) ∨
    (s.fstate = .active ∧ ¬ (s.nulterm = true ∧ b = 0) ∧ s.funit.used.val = 0 ∧ bsl b = none ∧
      feed b s = raise .invalid (s.setFstate .error)) ∨
    (s.fstate = .active ∧ ¬ (s.nulterm = true ∧ b = 0) ∧ s.funit.used.val = 0 ∧ bsl b = some .one ∧
      feed b s = emit (zext32 b) (s.setFcount (s.fcount + 1))) ∨
    (∃ l, s.fstate = .active ∧ ¬ (s.nulterm = true ∧ b = 0) ∧ s.funit.used.val = 0 ∧ bsl b = some l ∧ l ≠ .one ∧
      feed b s = finish 0 (s.setFunit ⟨s.funit.bytes.set 0 b, 1, l.toFin⟩)) ∨
    (∃ c, s.fstate = .active ∧ ¬ (s.nulterm = true ∧ b = 0) ∧ s.funit.used.val ≠ 0 ∧
      s.funit.used.val + 1 = s.funit.len.val ∧ decodeUnit ⟨filledBytes b s, s.funit.used.succ⟩ = .value c ∧
      feed b s = emit c ((s.setFunit .empty).setFcount (s.fcount + 1))) ∨
    (∃ k, s.fstate = .active ∧ ¬ (s.nulterm = true ∧ b = 0) ∧ s.funit.used.val ≠ 0 ∧
      s.funit.used.val + 1 = s.funit.len.val ∧ (∀ c, decodeUnit ⟨filledBytes b s, s.funit.used.succ⟩ ≠ .value c) ∧
      (k = .invalid ∨ k = .truncated) ∧ feed b s = raise k (s.setFunit .empty)) ∨
    (s.fstate = .active ∧ ¬ (s.nulterm = true ∧ b = 0) ∧ s.funit.used.val ≠ 0 ∧
      s.funit.used.val + 1 ≠ s.funit.len.val ∧
      feed b s = finish 0 (s.setFunit ⟨filledBytes b s, Fin.ofNat 4 (s.funit.used.val + 1), s.funit.len⟩)) := by
  obtain ⟨h1, h2⟩ | ⟨h1, h2, h3⟩ | ⟨h1, h2, h3, h4⟩ | ⟨h1, h2, h3, h4⟩ := feed_cases b s
  · exact .inl ⟨h1, h2⟩
  · obtain ⟨h5, h6⟩ | ⟨h5, h6⟩ := frameEnd_cases s
    · exact .inr (.inl ⟨h1, h2, h5, h3.trans h6⟩)
    · exact .inr (.inr (.inl ⟨h1, h2, h5, h3.trans h6⟩))
  · obtain ⟨h5, h6⟩ | ⟨h5, h6⟩ | ⟨l, h5, h6, h7⟩ := feedLead_cases b s
    · exact .inr (.inr (.inr (.inl ⟨h1, h2, h3, h5, h4.trans h6⟩)))
    · exact .inr (.inr (.inr (.inr (.inl ⟨h1, h2, h3, h5, h4.trans h6⟩))))
    · exact .inr (.inr (.inr (.inr (.inr (.inl ⟨l, h1, h2, h3, h5, h6, h4.trans h7⟩)))))
  · refine .inr (.inr (.inr (.inr (.inr (.inr ?_)))))
    obtain ⟨h5, h6⟩ | ⟨h5, h6⟩ := feedContinuation_cases b s
    · obtain ⟨c, h7, h8⟩ | ⟨h7, h8⟩ | ⟨h7, h8⟩ :=
        emitDecoded_cases ⟨filledBytes b s, s.funit.used.succ⟩ (s.setFunit .empty)
      · exact .inl ⟨c, h1, h2, h3, h5, h7, (h4.trans h6).trans h8⟩
      · exact .inr (.inl ⟨.invalid, h1, h2, h3, h5, by simp [h7], .inl rfl, (h4.trans h6).trans h8⟩)
      · exact .inr (.inl ⟨.truncated, h1, h2, h3, h5, by simp [h7], .inr rfl, (h4.trans h6).trans h8⟩)
    · exact .inr (.inr ⟨h1, h2, h3, h5, h4.trans h6⟩)

/-- What a pending unit knows in a state of 10_state.md R32: the length its lead byte announced, not yet reached. -/
theorem FrameUnit.Consistent.pending {f : FrameUnit} (hc : f.Consistent) (h0 : f.used.val ≠ 0) :
    ∃ l, bsl (f.bytes.get 0) = some l ∧ l ≠ .one ∧ f.len = l.toFin ∧ f.used.val < l.toNat := by
  obtain ⟨h1, h2, -⟩ := hc
  obtain ⟨hlt, hb⟩ := h2 fun h => h0 (h1.mpr h)
  obtain ⟨l, hl, hlen⟩ := Option.map_eq_some_iff.mp hb
  rw [← hlen, Length.toFin_val] at hlt
  refine ⟨l, hl, ?_, hlen.symm, hlt⟩
  rintro rfl
  simp only [Length.toNat] at hlt
  omega

/-- The last byte of a unit always decodes in a state of R32 (42_frame.md R94, R97). -/
theorem decodeUnit_filled {s : State} (b : Byte) (hc : s.funit.Consistent) (h0 : s.funit.used.val ≠ 0)
    (h : s.funit.used.val + 1 = s.funit.len.val) :
    ∃ l, bsl (s.funit.bytes.get 0) = some l ∧ s.funit.len = l.toFin ∧
      decodeUnit ⟨filledBytes b s, s.funit.used.succ⟩ = .value (assemblePayload (filledBytes b s) l) := by
  obtain ⟨l, hl, -, hlen, -⟩ := hc.pending h0
  have hb : (filledBytes b s).get 0 = s.funit.bytes.get 0 := by
    have := UnitBytes.get_set s.funit.bytes s.funit.used 0 b
    rw [if_neg fun h => h0 (by rw [← h]; rfl)] at this
    exact this
  exact ⟨l, hl, hlen, decodeUnit_of_whole (u := ⟨filledBytes b s, s.funit.used.succ⟩) (hb ▸ hl)
    (Fin.ext (by rw [← hlen]; simpa using h))⟩

end Sys2Proof.Machine
end

