-- ==== Sys2Proof/Laws/PerInstr.lean ====
section
/-! SUPPORT. Facts of every command's encoding, one lemma per constructor. -/

namespace Sys2Proof.Laws.EncodedFields

open Sys2Proof.Machine

/-- The word's reserved bits are 0 (30_encoding.md R56), and its count is 0 for every command but ULOAD (R55). -/
def Statement (i : Instr) : Prop :=
  reservedField (encode i) = 0 ∧ ((∀ n, i ≠ .uload n) → countField (encode i) = 0)

theorem nop : Statement .nop := by simp [Statement, encode]
theorem clsb : Statement .clsb := by simp [Statement, encode]
theorem clsc : Statement .clsc := by simp [Statement, encode]
theorem enc : Statement .enc := by simp [Statement, encode]
theorem dec : Statement .dec := by simp [Statement, encode]
theorem uload (n : BitVec 3) : Statement (.uload n) := by simp [Statement, encode]
theorem fstart : Statement .fstart := by simp [Statement, encode]
theorem ffeed : Statement .ffeed := by simp [Statement, encode]
theorem fend : Statement .fend := by simp [Statement, encode]
theorem srst : Statement .srst := by simp [Statement, encode]

end Sys2Proof.Laws.EncodedFields
end

