-- ==== Sys2Proof/Laws/Step.lean ====
section
/-! SUPPORT. What one command and one host event can do, said once: the inversion lemmas of `exec`, of a CMD write and of
`perform`. -/

namespace Sys2Proof.Machine

/-- Every outcome of every command, with what it holds under (FFEED's are `feed_outcomes`). -/
theorem exec_outcomes {i : Instr} {s t : State} (h : exec i s = .next t) :
  (i = .nop ∧ t = s) ∨
  (i = .clsb ∧ bsl (byteOperand s) = none ∧ t = raise .invalid s) ∨
  (∃ k, i = .clsb ∧ bsl (byteOperand s) = some k ∧ t = finish (BitVec.ofNat 32 k.toNat) s) ∨
  (i = .clsc ∧ csl s.arg = none ∧ t = raise .invalid s) ∨
  (∃ k, i = .clsc ∧ csl s.arg = some k ∧ t = finish (BitVec.ofNat 32 k.toNat) s) ∨
  (i = .enc ∧ csl s.arg = none ∧ t = raise .invalid (s.setUnit .empty)) ∨
  (∃ k, i = .enc ∧ csl s.arg = some k ∧
    t = finish (BitVec.ofNat 32 k.toNat) (s.setUnit ⟨.ofFn (encodeByte s.arg k), k.toFin⟩)) ∨
  (i = .dec ∧ decodeUnit s.unit = .invalid ∧ t = raise .invalid s) ∨
  (i = .dec ∧ decodeUnit s.unit = .truncated ∧ t = raise .truncated s) ∨
  (∃ c, i = .dec ∧ decodeUnit s.unit = .value c ∧ t = finish c s) ∨
  (∃ (n : BitVec 3) (hn : n.toNat < 5), i = .uload n ∧
    t = finish (BitVec.ofNat 32 n.toNat) (s.setUnit (loadedUnit s ⟨n.toNat, hn⟩))) ∨
  (∃ (n : BitVec 3), i = .uload n ∧ 5 ≤ n.toNat ∧ t = raise .illegal s) ∨
  (i = .fstart ∧ t = finish 0 (((s.setFunit .empty).setFcount 0).setFstate .active)) ∨
  (i = .ffeed ∧ t = feed (byteOperand s) s) ∨
  (i = .fend ∧ s.fstate ≠ .active ∧ t = raise .sequence s) ∨
  (i = .fend ∧ s.fstate = .active ∧ s.funit.used.val ≠ 0 ∧ t = raise .truncated (s.setFstate .error)) ∨
  (i = .fend ∧ s.fstate = .active ∧ s.funit.used.val = 0 ∧ t = finish s.fcount (s.setFstate .done)) ∨
  (i = .srst ∧ t = resetBlock s) := by
  cases i with
  | nop => cases h; simp
  | clsb =>
    cases h
    obtain ⟨h1, h2⟩ | ⟨k, h1, h2⟩ := finishLength_cases (bsl (byteOperand s)) s
    · rw [h2]; simp [h1]
    · rw [h2]; simp [h1]
  | clsc =>
    cases h
    obtain ⟨h1, h2⟩ | ⟨k, h1, h2⟩ := finishLength_cases (csl (codepointOperand s)) s
    · rw [h2]; simp [codepointOperand] at h1; simp [h1]
    · rw [h2]; simp [codepointOperand] at h1; simp [h1]
  | enc =>
    cases h
    obtain ⟨h1, h2⟩ | ⟨k, h1, h2⟩ := encodeUnit_cases (codepointOperand s) <;> rw [h2] <;>
      simp [codepointOperand] at h1
    · simp [h1]; rfl
    · simp [h1]; cases k <;> rfl
  | dec =>
    cases h
    obtain ⟨h1, h2⟩ | ⟨h1, h2⟩ | ⟨k, h1, h2⟩ := finishDecoded_cases (decodeUnit (unitOperand s)) s <;> rw [h2] <;>
      simp [unitOperand] at h1 <;> simp [h1]
  | uload n =>
    cases h
    obtain ⟨h1, h2⟩ | ⟨h1, h2⟩ := loadUnit_cases n s <;> rw [h2]
    · simp; left; exact h1
    · simp; right; exact h1
  | fstart => cases h; simp
  | ffeed => cases h; simp
  | fend =>
    cases h
    obtain ⟨h1, h2⟩ | ⟨h1, h2⟩ := closeFrame_cases s
    · rw [h2]; simp [h1]
    · obtain ⟨h3, h4⟩ | ⟨h3, h4⟩ := frameEnd_cases s <;> rw [h2, h4] <;> simp [h1, h3]
  | srst => cases h; simp

@[simp] theorem perform_write_cmd (w : Word) (s : State) : perform (.write 0x08 32 w) s = stepCmd w s := rfl

/-- A CMD write runs the command its word decodes to, or the ILLEGAL outcome (43_control.md R106). -/
theorem stepCmd_outcomes {w : Word} {s t : State} (h : stepCmd w s = .next t) :
    (∃ i, decodeCmd w = some i ∧ exec i s = .next t) ∨ (decodeCmd w = none ∧ t = raise .illegal s) := by
  cases hd : decodeCmd w with
  | none => rw [stepCmd_of_illegal hd] at h; cases h; exact .inr ⟨rfl, rfl⟩
  | some i => rw [stepCmd_of_decode hd] at h; exact .inl ⟨i, rfl, h⟩

/-- Everything a host event that is not refused can be, and what it does. -/
theorem perform_outcomes {e : HostEvent} {s t : State} (h : perform e s = .next t) :
    (e = .reset ∧ t = resetBlock s) ∨
    (∃ r, e = hostRead r ∧ t = s.handOut (readReg s r)) ∨
    (∃ r v, e = hostWrite r v ∧ r ≠ .cmd ∧ t = writeReg r v s) ∨
    (∃ w, e = .write 0x08 32 w ∧ stepCmd w s = .next t) := by
  cases e with
  | reset => cases h; exact .inl ⟨rfl, rfl⟩
  | read off width =>
    simp only [perform] at h
    cases ha : accessed off width with
    | error => rw [ha] at h; cases h
    | ok r =>
      rw [ha] at h
      cases h
      obtain ⟨rfl, rfl⟩ := accessed_ok ha
      exact .inr (.inl ⟨r, rfl, rfl⟩)
  | write off width v =>
    simp only [perform] at h
    cases ha : accessed off width with
    | error => rw [ha] at h; cases h
    | ok r =>
      rw [ha] at h
      obtain ⟨rfl, rfl⟩ := accessed_ok ha
      by_cases hr : r = .cmd
      · subst hr
        exact .inr (.inr (.inr ⟨v, rfl, h⟩))
      · simp only [performWrite, hr, if_false] at h
        cases h
        exact .inr (.inr (.inl ⟨r, v, rfl, hr, rfl⟩))

/-- A property every performed event keeps is kept by a whole sequence of events. -/
theorem performAll_keeps {P : State → Prop} {es : List HostEvent}
    (hstep : ∀ e ∈ es, ∀ s t, P s → perform e s = .next t → P t) {s t : State} (hs : P s)
    (h : performAll es s = .next t) : P t := by
  induction es generalizing s with
  | nil => cases h; exact hs
  | cons e es ih =>
    simp only [performAll] at h
    cases hp : perform e s with
    | fault r => cases r
    | refused r => rw [hp] at h; cases h
    | next u =>
      rw [hp] at h
      exact ih (fun e he => hstep e (List.mem_cons_of_mem _ he)) (hstep e (by simp) s u hs hp) h

/-- A write to a register other than CMD changes nothing but CTRL and ARG (43_control.md R103 to R105). -/
theorem writeReg_outcomes (r : Reg) (v : Word) (s : State) :
    (r = .ctrl ∧ writeReg r v s = s.setNulterm (v.getLsbD 0)) ∨ (r = .arg ∧ writeReg r v s = s.setArg v) ∨
    writeReg r v s = s := by
  cases r <;> simp [writeReg]

end Sys2Proof.Machine
end

