-- ==== Sys2Proof/Tests/Slice0.lean ====
section
/-! SUPPORT. The model's own tests: expected values are the spec's (spec/95_test_vectors.md, spec/opcode_table.json,
30_encoding.md R53 to R57), not the model's answers. After them, one witness for every statement that has hypotheses. -/

namespace Sys2Proof.Tests

open Sys2Proof Sys2Proof.Machine

/-! ## Small helpers -/

/-- The reset state with a value in ARG. -/
def withArg (v : Word) : State := { State.reset with arg := v }

/-- The reset state with a unit in UNIT. -/
def withUnit (b0 b1 b2 b3 : Byte) (used : Fin 5) : State := { State.reset with unit := ⟨⟨b0, b1, b2, b3⟩, used⟩ }

/-- An open frame with the given pending unit, and a value in ARG. -/
def inFrame (f : FrameUnit) (v : Word) : State := { State.reset with fstate := .active, funit := f, arg := v }

/-- The pending unit `F0 9F`. -/
def twoOfFour : FrameUnit := ⟨⟨0xF0, 0x9F, 0, 0⟩, 2, 4⟩

/-- The pending unit `C3`. -/
def oneOfTwo : FrameUnit := ⟨⟨0xC3, 0, 0, 0⟩, 1, 2⟩

/-- The state of an outcome that has one. -/
def next? : Host.Outcome State Fault Refusal → Option State
  | .next t => some t
  | .fault _ => none
  | .refused _ => none

/-- The given registers as the host reads them after an outcome. -/
def readings (rs : List Reg) (o : Host.Outcome State Fault Refusal) : Option (List Word) :=
  (next? o).map fun t => rs.map (readReg t)

/-! ## Well-formedness: each check with a term it refuses -/

theorem test_wf_refuses_uload_5 : ¬ (Instr.uload 5).WellFormed := by decide
theorem test_wf_refuses_uload_6 : ¬ (Instr.uload 6).WellFormed := by decide
theorem test_wf_refuses_uload_7 : ¬ (Instr.uload 7).WellFormed := by decide
theorem test_wf_accepts_uload_4 : (Instr.uload 4).WellFormed := by decide

/-! ## Decoding: every row's word, bit by bit as spec/opcode_table.json has it -/

theorem test_decode_nop : decodeTableWord 32 0b00000000000000000000000000000000 = some .nop := by decide
theorem test_decode_clsb : decodeTableWord 32 0b00000000000000000000000000000001 = some .clsb := by decide
theorem test_decode_clsc : decodeTableWord 32 0b00000000000000000000000000000010 = some .clsc := by decide
theorem test_decode_enc : decodeTableWord 32 0b00000000000000000000000000000011 = some .enc := by decide
theorem test_decode_dec : decodeTableWord 32 0b00000000000000000000000000000100 = some .dec := by decide
theorem test_decode_uload :
    decodeTableWord 32 0b00000000000000000000000000000101 = some (.uload 0) ∧
    decodeTableWord 32 0b00000000000000000000000000010101 = some (.uload 1) ∧
    decodeTableWord 32 0b00000000000000000000000000100101 = some (.uload 2) ∧
    decodeTableWord 32 0b00000000000000000000000000110101 = some (.uload 3) ∧
    decodeTableWord 32 0b00000000000000000000000001000101 = some (.uload 4) := by decide
theorem test_decode_fstart : decodeTableWord 32 0b00000000000000000000000000000110 = some .fstart := by decide
theorem test_decode_ffeed : decodeTableWord 32 0b00000000000000000000000000000111 = some .ffeed := by decide
theorem test_decode_fend : decodeTableWord 32 0b00000000000000000000000000001000 = some .fend := by decide
theorem test_decode_srst : decodeTableWord 32 0b00000000000000000000000000001111 = some .srst := by decide

/-- The illegal words of spec/95_test_vectors.md 2.6. -/
theorem test_decode_illegal :
    [0x09#32, 0x0A, 0x0B, 0x0C, 0x0D, 0x0E, 0x10, 0x11, 0x17, 0x1F, 0x40, 0x55, 0x65, 0x75, 0x80, 0x85, 0x100, 0x80000001,
      0xFFFFFFFF].filterMap decodeCmd = [] := by decide

theorem test_encode_uload : encode (.uload 4) = 0x45 := by decide

/-- The next step runs the word that was placed (95_test_vectors.md 1.1, first row). -/
theorem test_placed_word_runs :
    readings [.result, .status, .unitUsed] (step (State.reset.withFetchWord 32 0x3)) = some [1, 0, 1] := by decide

/-! ## One step per command, expected values from spec/95_test_vectors.md -/

/-- 2.6: `CLSB 0xE2 ; NOP`. -/
theorem test_nop_keeps : readings [.result, .status] (exec .nop { withArg 0xE2 with result := 3 }) = some [3, 0] := by decide

/-- 2.1: the top of row 4, and `ARG[31:8]` ignored. -/
theorem test_clsb_top : readings [.result, .status] (exec .clsb (withArg 0xF7)) = some [4, 0x00] := by decide
theorem test_clsb_continuation : readings [.result, .status] (exec .clsb (withArg 0xFFFFFF80)) = some [0xFFFFFFFF, 0x11] := by
  decide

/-- 2.2: the last codepoint and the first value above it. -/
theorem test_clsc_top : readings [.result, .status] (exec .clsc (withArg 0x10FFFF)) = some [4, 0x00] := by decide
theorem test_clsc_above : readings [.result, .status] (exec .clsc (withArg 0x110000)) = some [0xFFFFFFFF, 0x11] := by decide

/-- 2.3: `ENC 0x20AC`, and the failed ENC that empties a unit. -/
theorem test_enc_three : readings [.unitBytes, .unitUsed, .result, .status] (exec .enc (withArg 0x20AC)) =
    some [0x00AC82E2, 3, 3, 0x00] := by decide
theorem test_enc_failure_empties : readings [.unitBytes, .unitUsed, .result, .status]
    (exec .enc { withUnit 0xE2 0x82 0xAC 0 3 with arg := 0x110000 }) = some [0, 0, 0xFFFFFFFF, 0x11] := by decide

/-- 2.4: the largest value, and a unit longer than its lead byte announces. -/
theorem test_dec_largest : readings [.result, .status] (exec .dec (withUnit 0xF7 0xBF 0xBF 0xBF 4)) = some [0x1FFFFF, 0x00] := by
  decide
theorem test_dec_too_long : readings [.result, .status] (exec .dec (withUnit 0xC3 0xA9 0 0 3)) = some [0xFFFFFFFF, 0x11] := by
  decide

/-- 2.4 and P5: ULOAD keeps the bytes below n. -/
theorem test_uload_one : readings [.unitBytes, .unitUsed, .result, .status] (exec (.uload 1) (withArg 0xA9C3)) =
    some [0xC3, 1, 1, 0x00] := by decide

/-- 2.5: FSTART leaves ERROR, STICKY stays. -/
theorem test_fstart_leaves_error : readings [.result, .status]
    (exec .fstart { State.reset with fstate := .error, sticky := true, code := .invalid, fcount := 7 }) = some [0, 0x30] := by
  decide

/-- 2.5: the second byte of `C3 41`, and the wrap of FCOUNT. -/
theorem test_ffeed_absorbs : readings [.result, .status, .fcount] (exec .ffeed (inFrame oneOfTwo 0x41)) = some [0xC1, 0x28, 1] := by
  decide
theorem test_ffeed_count_wraps : readings [.result, .status, .fcount]
    (exec .ffeed { inFrame .empty 0x41 with fcount := 0xFFFFFFFF }) = some [0x41, 0x28, 0] := by decide

/-- 1.4: the truncated frame `F0 9F`. -/
theorem test_fend_truncated : readings [.result, .status] (exec .fend (inFrame twoOfFour 0)) = some [0xFFFFFFFF, 0x1172] := by
  decide
theorem test_fend_idle : readings [.result, .status] (exec .fend State.reset) = some [0xFFFFFFFF, 0x14] := by decide

/-- 2.6: `WR CTRL, 1 ; WR ARG, 0x1234 ; SRST`. -/
theorem test_srst_clears : readings [.ctrl, .arg, .result, .status]
    (exec .srst { withArg 0x1234 with nulterm := true, sticky := true }) = some [0, 0, 0, 0] := by decide

/-- 2.6: an illegal word inside a frame. -/
theorem test_illegal_in_frame : readings [.result, .status] (stepCmd 0x09 (inFrame oneOfTwo 0)) = some [0xFFFFFFFF, 0x8B3] := by
  decide

/-- 2.6: CTRL keeps only bit 0, and writes to RO registers are ignored. -/
theorem test_register_writes :
    readings [.ctrl] (perform (.write 0x00 32 0xFFFFFFFF) State.reset) = some [1] ∧
    readings [.result, .status] (perform (.write 0x0C 32 5) State.reset) = some [0, 0] := by decide

/-- 10_state.md R17 and R18: the masks leave exactly the payload bits, and the bands follow one another. -/
theorem test_table_rows : ∀ i : Fin 5,
    (row i).leadPattern &&& (row i).payloadMask = 0 ∧ (row i).payloadMask.toNat + 1 = 2 ^ (row i).payloadBits := by decide

/-- 30_encoding.md R65: a legal and an illegal word as text. -/
theorem test_text : (disassemble 0x35).text = "ULOAD 3" ∧ (disassemble 0xABCDEF55).text = ".word 0xABCDEF55" := by decide

/-- R63: lines of 95_test_vectors.md P1, P3 and P5, with a comment; R64: a pseudo-command; and lines the syntax lacks. -/
theorem test_read_lines :
    readLine "WR ARG, 0x10FFFF   -- HostWrite" = some [.wr .arg 0x10FFFF] ∧ readLine "WR CTRL, 1" = some [.wr .ctrl 1] ∧
    readLine "ULOAD 3" = some [.command (.uload 3)] ∧ readLine ".word 0x55" = some [.word 0x55] ∧
    readLine "RD STATUS" = some [.rd .status] ∧ readLine "FFEED 0xc3" = some [.wr .arg 0xC3, .command .ffeed] := by decide
theorem test_read_refuses :
    readLine "ULOAD 5" = none ∧ readLine "CLSB 0x100" = none ∧ readLine "WR ARG, 0x100000000" = none ∧
    readLine "HALT" = none := by decide

/-- The model's own reading of comments and blank lines (log 12). -/
theorem test_read_comments :
    readLine "RD RESULT -- 3" = some [.rd .result] ∧ readLine "RD RESULT --3" = none ∧ readLine "-- 3" = some [] ∧
    readLine "" = some [] := by decide

/-! ## Witnesses: the hypotheses of each statement are met -/

theorem witness_IllegalWordsReportIllegal :
    decodeCmd 0x80 = none ∧ decodeCmd 0x80000000 = none ∧ decodeCmd 0x09 = none ∧ decodeCmd 0x0E = none ∧
    decodeCmd 0x55 = none ∧ decodeCmd 0x75 = none ∧ decodeCmd 0x10 = none ∧ decodeCmd 0x7F = none := by decide

theorem witness_DisassemblyAssemblesBack :
    decodeCmd 0x45 = some (.uload 4) ∧ decodeCmd 0x55 = none ∧ decodeCmd 0x08 = some .fend ∧ (∀ n, Instr.fend ≠ .uload n) := by
  decide

theorem witness_StepRunsDecodedCommand :
    ({ State.reset with pending := [.write 0x08 32 0x45, .reset] } : State).pending = .write 0x08 32 0x45 :: [.reset] ∧
    decodeCmd 0x45 = some (.uload 4) := by decide

theorem witness_PlacedWordRunsNext : 0x45 < 2 ^ 32 ∧ decodeTableWord 32 0x45 = some (.uload 4) := by decide

theorem witness_CmdWriteIsTotal :
    decodeCmd 0x0F = some .srst ∧ decodeCmd 0x1F = none ∧
    (∃ t, perform (.write 0x1C 32 5) (inFrame twoOfFour 0) = .next t) ∧ HostEvent.write 0x1C 32 5 ≠ .reset ∧
    (∀ off ∈ [0x00, 0x04, 0x08], ∀ v, HostEvent.write 0x1C 32 5 ≠ .write off 32 v) :=
  ⟨by decide, by decide, ⟨_, rfl⟩, by decide, by simp⟩

theorem witness_RegisterWritesDoOnlyTheirOwn :
    decodeCmd 0x1 ≠ some .srst ∧ ∃ t, perform (.write 0x08 32 0x1) (withArg 0xFF) = .next t := ⟨by decide, _, rfl⟩

/-- Legal at both ends of the window; the accesses of each kind R42 leaves undefined. -/
theorem witness_OnlyUndefinedAccessesRefused :
    (HostEvent.read 0 32).Legal ∧ (HostEvent.write 0x1C 32 0).Legal ∧ HostEvent.reset.Legal ∧
    ¬ (HostEvent.read 0 16).Legal ∧ ¬ (HostEvent.read 0x1E 32).Legal ∧ ¬ (HostEvent.write 0x20 32 0).Legal ∧
    ¬ (HostEvent.read (-4) 32).Legal := by
  simp [HostEvent.Legal]

theorem witness_WindowStartsAtBase : (writeAt (Config.base + 0x1C) 0).Legal ∧ ¬ (writeAt (Config.base + 0x20) 0).Legal := by
  simp [HostEvent.Legal, writeAt, windowOffset]

theorem witness_UloadOfUnitBytesReproducesUnit :
    (withUnit 0xE2 0x82 0xAC 0 3).unit.Canonical ∧ (withUnit 0xF0 0x90 0x80 0x80 4).unit.Canonical ∧
    State.reset.unit.Canonical := by decide

theorem witness_StepsApplyEventsInOrder :
    ∃ t, performAll [.write 0x04 32 0x41, .write 0x08 32 0x3, .read 0x14 32] { State.reset with pending := [.reset] } = .next t ∧
      t.returned = [0x41] := ⟨_, rfl, by decide⟩

theorem witness_FirstCommandsAfterReset : ({ State.reset with pending := [hostWrite .cmd 4] } : State).Launched := rfl

theorem witness_ClsbClassifiesLeadByte :
    (∀ v ∈ [0x00#32, 0x7F, 0x17F], (withArg v).arg.toNat % 256 ≤ 0x7F) ∧
    (∀ v ∈ [0xC0#32, 0xDF], 0xC0 ≤ (withArg v).arg.toNat % 256 ∧ (withArg v).arg.toNat % 256 ≤ 0xDF) ∧
    (∀ v ∈ [0xE0#32, 0xEF], 0xE0 ≤ (withArg v).arg.toNat % 256 ∧ (withArg v).arg.toNat % 256 ≤ 0xEF) ∧
    (∀ v ∈ [0xF0#32, 0xF7], 0xF0 ≤ (withArg v).arg.toNat % 256 ∧ (withArg v).arg.toNat % 256 ≤ 0xF7) ∧
    (∀ v ∈ [0x80#32, 0xBF, 0xF8, 0xFF], 0x80 ≤ (withArg v).arg.toNat % 256 ∧ (withArg v).arg.toNat % 256 ≤ 0xBF ∨
      0xF8 ≤ (withArg v).arg.toNat % 256) := by simp [withArg]

theorem witness_ClscClassifiesCodepoint :
    (∀ v ∈ [0x0#32, 0x7F], (withArg v).arg.toNat ≤ 0x7F) ∧
    (∀ v ∈ [0x80#32, 0x7FF], 0x80 ≤ (withArg v).arg.toNat ∧ (withArg v).arg.toNat ≤ 0x7FF) ∧
    (∀ v ∈ [0x800#32, 0xFFFF], 0x800 ≤ (withArg v).arg.toNat ∧ (withArg v).arg.toNat ≤ 0xFFFF) ∧
    (∀ v ∈ [0x10000#32, 0x10FFFF], 0x10000 ≤ (withArg v).arg.toNat ∧ (withArg v).arg.toNat ≤ 0x10FFFF) ∧
    (∀ v ∈ [0x110000#32, 0xFFFFFFFF], 0x10FFFF < (withArg v).arg.toNat) := by simp [withArg]

theorem witness_TableRowsDisjoint : rowMatches 0xF7 4 = true ∧ rowMatches 0xBF 0 = true := by decide

theorem witness_LengthAgreement :
    csl 0x7F = some .one ∧ csl 0x7FF = some .two ∧ csl 0xFFFF = some .three ∧ csl 0x10FFFF = some .four := by decide

/-- ENC's clauses have CLSC's bands. -/
theorem witness_EncEncodesCodepoint :
    (withArg 0x7F).arg.toNat ≤ 0x7F ∧
    (∀ v ∈ [0x80#32, 0x7FF], 0x80 ≤ (withArg v).arg.toNat ∧ (withArg v).arg.toNat ≤ 0x7FF) ∧
    (∀ v ∈ [0x800#32, 0xFFFF], 0x800 ≤ (withArg v).arg.toNat ∧ (withArg v).arg.toNat ≤ 0xFFFF) ∧
    (∀ v ∈ [0x10000#32, 0x10FFFF], 0x10000 ≤ (withArg v).arg.toNat ∧ (withArg v).arg.toNat ≤ 0x10FFFF) ∧
    (∀ v ∈ [0x110000#32, 0xFFFFFFFF], 0x10FFFF < (withArg v).arg.toNat) := by simp [withArg]

/-- One unit per clause of DEC: empty; no lead byte; too short; too long; whole, of each length. -/
theorem witness_DecDecodesUnit :
    (withUnit 0x41 0 0 0 0).unit.used.val = 0 ∧
    (∀ b ∈ [0x80#8, 0xBF, 0xF8, 0xFF], (withUnit b 0 0 0 4).unit.used.val ≠ 0 ∧
      (0x80 ≤ b.toNat ∧ b.toNat ≤ 0xBF ∨ 0xF8 ≤ b.toNat)) ∧
    (∀ x ∈ [(((0xC0 : Nat), (0xDF : Nat), (2 : Nat)), 0xC0#8, (1 : Fin 5)), ((0xE0, 0xEF, 3), 0xEF, 2), ((0xF0, 0xF7, 4), 0xF7, 3)],
      x.1 ∈ [(0x00, 0x7F, 1), (0xC0, 0xDF, 2), (0xE0, 0xEF, 3), (0xF0, 0xF7, 4)] ∧
      x.1.1 ≤ (withUnit x.2.1 0 0 0 x.2.2).unit.bytes.b0.toNat ∧ (withUnit x.2.1 0 0 0 x.2.2).unit.bytes.b0.toNat ≤ x.1.2.1 ∧
      (withUnit x.2.1 0 0 0 x.2.2).unit.used.val ≠ 0 ∧ (withUnit x.2.1 0 0 0 x.2.2).unit.used.val < x.1.2.2) ∧
    (∀ x ∈ [(((0x00 : Nat), (0x7F : Nat), (1 : Nat)), 0x7F#8, (2 : Fin 5)), ((0xC0, 0xDF, 2), 0xDF, 3), ((0xE0, 0xEF, 3), 0xE0, 4)],
      x.1 ∈ [(0x00, 0x7F, 1), (0xC0, 0xDF, 2), (0xE0, 0xEF, 3), (0xF0, 0xF7, 4)] ∧
      x.1.1 ≤ (withUnit x.2.1 0 0 0 x.2.2).unit.bytes.b0.toNat ∧ (withUnit x.2.1 0 0 0 x.2.2).unit.bytes.b0.toNat ≤ x.1.2.1 ∧
      x.1.2.2 < (withUnit x.2.1 0 0 0 x.2.2).unit.used.val) ∧
    (∀ b ∈ [0x00#8, 0x7F], (withUnit b 0 0 0 1).unit.used.val = 1 ∧ b.toNat ≤ 0x7F) ∧
    (∀ b ∈ [0xC0#8, 0xDF], (withUnit b 0 0 0 2).unit.used.val = 2 ∧ 0xC0 ≤ b.toNat ∧ b.toNat ≤ 0xDF) ∧
    (∀ b ∈ [0xE0#8, 0xEF], (withUnit b 0 0 0 3).unit.used.val = 3 ∧ 0xE0 ≤ b.toNat ∧ b.toNat ≤ 0xEF) ∧
    (∀ b ∈ [0xF0#8, 0xF7], (withUnit b 0 0 0 4).unit.used.val = 4 ∧ 0xF0 ≤ b.toNat ∧ b.toNat ≤ 0xF7) := by simp [withUnit]

theorem witness_EncodeDecodeRoundTrip :
    (0x10FFFF#32).toNat ≤ 0x10FFFF ∧ 0x10FFFF < (0x110000#32).toNat ∧ (withArg 0x10FFFF).arg = 0x10FFFF#32 ∧
    (withArg 0x110000).arg = 0x110000#32 := by decide

theorem witness_EncodeInjectiveDecodeNot :
    encodeUnit 0xE9 = ⟨⟨0xC3, 0xA9, 0, 0⟩, 2⟩ ∧ decodeUnit ⟨⟨0xC3, 0xA9, 0, 0⟩, 2⟩ = .value 0xE9 ∧
    encodeUnit 0x0 ≠ ⟨⟨0xC0, 0x80, 0, 0⟩, 2⟩ ∧ decodeUnit ⟨⟨0xC0, 0x80, 0, 0⟩, 2⟩ = .value 0 := by decide

theorem witness_DecodeChecksNoContent :
    decodeUnit ⟨⟨0xF4, 0x90, 0x80, 0x80⟩, 4⟩ = .value 0x110000 ∧ decodeUnit ⟨⟨0xF4, 0x8F, 0xBF, 0xBF⟩, 4⟩ = .value 0x10FFFF ∧
    (0xA9#8).toNat % 64 = (0x29#8).toNat % 64 := by decide

theorem witness_EncodeIsShortestForm : decodeUnit ⟨⟨0xF0, 0x80, 0x80, 0x80⟩, 4⟩ = .value 0 := by decide

theorem witness_FrameEndClosesFrame :
    (Instr.fend = .fend ∨ Instr.fend = .ffeed ∧ State.reset.nulterm = true ∧ State.reset.arg.toNat % 256 = 0) ∧
    (Instr.ffeed = .ffeed ∧ ({ inFrame .empty 0x100 with nulterm := true } : State).nulterm = true ∧
      (inFrame .empty 0x100).arg.toNat % 256 = 0) ∧
    State.reset.fstate ≠ .active ∧
    ((inFrame twoOfFour 0).fstate = .active ∧ (inFrame twoOfFour 0).funit.used ≠ 0) ∧
    ((inFrame .empty 0).fstate = .active ∧ (inFrame .empty 0).funit.used = 0) := by decide

/-- One frame state per clause of FFEED; the pending units are consistent. -/
theorem witness_FfeedFeedsOneByte :
    State.reset.fstate ≠ .active ∧
    (∀ f ∈ [oneOfTwo, .empty], (inFrame f 0).fstate = .active ∧ ({ inFrame f 0 with nulterm := true } : State).nulterm = true ∧
      (inFrame f 0).arg.extractLsb' 0 8 = 0) ∧
    oneOfTwo.used ≠ 0 ∧ FrameUnit.empty.used = 0 ∧
    (∀ v ∈ [0x80#32, 0xBF, 0xF8, 0xFF], (inFrame .empty v).fstate = .active ∧
      ¬ ((inFrame .empty v).nulterm = true ∧ (inFrame .empty v).arg.extractLsb' 0 8 = 0) ∧
      (0x80 ≤ ((inFrame .empty v).arg.extractLsb' 0 8).toNat ∧ ((inFrame .empty v).arg.extractLsb' 0 8).toNat ≤ 0xBF ∨
        0xF8 ≤ ((inFrame .empty v).arg.extractLsb' 0 8).toNat)) ∧
    (∀ v ∈ [0x00#32, 0x7F], ¬ ((inFrame .empty v).nulterm = true ∧ (inFrame .empty v).arg.extractLsb' 0 8 = 0) ∧
      ((inFrame .empty v).arg.extractLsb' 0 8).toNat ≤ 0x7F) ∧
    (∀ x ∈ [(((0xC0 : Nat), (0xDF : Nat), (2 : Fin 5)), 0xC0#32), ((0xC0, 0xDF, 2), 0xDF), ((0xE0, 0xEF, 3), 0xE0), ((0xE0, 0xEF, 3), 0xEF),
        ((0xF0, 0xF7, 4), 0xF0), ((0xF0, 0xF7, 4), 0xF7)],
      x.1 ∈ [(0xC0, 0xDF, (2 : Fin 5)), (0xE0, 0xEF, 3), (0xF0, 0xF7, 4)] ∧
      x.1.1 ≤ ((inFrame .empty x.2).arg.extractLsb' 0 8).toNat ∧
      ((inFrame .empty x.2).arg.extractLsb' 0 8).toNat ≤ x.1.2.1) ∧
    (∀ f ∈ [oneOfTwo, ⟨⟨0xE2, 0x82, 0, 0⟩, 2, 3⟩, ⟨⟨0xF0, 0x9F, 0x98, 0⟩, 3, 4⟩, twoOfFour],
      (inFrame f 0xA9).funit.used ≠ 0 ∧ (inFrame f 0xA9).funit.Consistent) ∧
    ((3 : Fin 4).val = twoOfFour.used.val + 1 ∧ (3 : Fin 4).val < twoOfFour.len.val) := by
  refine ⟨by decide, by decide, by decide, by decide, ?_, ?_, ?_, by decide, by decide⟩ <;> simp [inFrame, State.reset]

theorem witness_FrameStateMachine :
    (inFrame twoOfFour 0x98).funit.Consistent ∧ (inFrame twoOfFour 0x98).fstate = .active ∧ State.reset.fstate ≠ .active ∧
    (∀ i ∈ [.fstart, .srst, .ffeed, .fend], decodeCmd 0x3 ≠ some i) ∧
    (∃ t, exec .ffeed (inFrame twoOfFour 0x98) = .next t) ∧ (∃ t, exec .fend (inFrame twoOfFour 0x98) = .next t) ∧
    (∃ t, exec .fend State.reset = .next t) ∧ (∃ t, exec .fstart State.reset = .next t) ∧
    (∃ t, perform (.write 0x08 32 0x3) (inFrame twoOfFour 0) = .next t) :=
  ⟨by decide, by decide, by decide, by decide, ⟨_, rfl⟩, ⟨_, rfl⟩, ⟨_, rfl⟩, ⟨_, rfl⟩, ⟨_, rfl⟩⟩

theorem witness_CommandsWriteOnlyTheirRows :
    (∃ t, exec .enc (inFrame twoOfFour 0xE9) = .next t) ∧ (∃ t, exec (.uload 4) (inFrame twoOfFour 0xE9) = .next t) ∧
    Instr.enc ∉ [.fstart, .ffeed, .fend, .srst] ∧ Instr.ffeed ∉ [.enc, .srst] ∧ (∀ n, Instr.ffeed ≠ .uload n) ∧
    (4#3).toNat ≤ 4 :=
  ⟨⟨_, rfl⟩, ⟨_, rfl⟩, by decide, by decide, by decide, by decide⟩

theorem witness_FrameSurvivesOtherCommands :
    (∀ e ∈ [HostEvent.write 0x04 32 0xE9, .write 0x08 32 0x3, .read 0x14 32], e ≠ .reset ∧
      ∀ width w, e = .write 0x08 width w → ∀ i ∈ [.fstart, .ffeed, .fend, .srst], decodeCmd w ≠ some i) ∧
    ∃ t, performAll [.write 0x04 32 0xE9, .write 0x08 32 0x3, .read 0x14 32] (inFrame twoOfFour 0) = .next t := by
  refine ⟨?_, ⟨_, rfl⟩⟩
  intro e he
  simp only [List.mem_cons, List.not_mem_nil, or_false] at he
  obtain rfl | rfl | rfl := he
  · simp
  · refine ⟨by simp, ?_⟩
    rintro width w ⟨⟩
    decide
  · simp

theorem witness_FailedFrameIsTerminal :
    ({ inFrame twoOfFour 0x41 with fstate := .error } : State).fstate = .error ∧
    (∀ e ∈ [HostEvent.write 0x08 32 0x7], e ≠ .reset ∧
      ∀ width w, e = .write 0x08 width w → decodeCmd w ≠ some .fstart ∧ decodeCmd w ≠ some .srst) ∧
    ∃ t, performAll [.write 0x08 32 0x7] { inFrame twoOfFour 0x41 with fstate := .error } = .next t := by
  refine ⟨rfl, ?_, ⟨_, rfl⟩⟩
  intro e he
  obtain rfl := List.mem_singleton.mp he
  refine ⟨by simp, ?_⟩
  rintro width w ⟨⟩
  decide

/-- Each clause: FSTART, an FFEED that emits at the top of the count, and a command that does not count. -/
theorem witness_FcountCountsEmissions :
    (∃ t, perform (.write 0x08 32 0x6) (inFrame twoOfFour 0) = .next t) ∧
    (∃ t, perform (.write 0x08 32 0x7) { inFrame .empty 0x41 with fcount := 0xFFFFFFFF } = .next t ∧ t.cpv = true) ∧
    (∃ t, perform (.write 0x08 32 0x3) (inFrame twoOfFour 0) = .next t) :=
  ⟨⟨_, rfl⟩, ⟨_, rfl, by decide⟩, ⟨_, rfl⟩⟩

theorem witness_CpvMarksEmissions :
    (inFrame oneOfTwo 0xA9).funit.Consistent ∧ decodeCmd 0x7 = some .ffeed ∧ decodeCmd 0x7 ≠ some .nop ∧
    (∃ t, perform (.write 0x08 32 0x7) (inFrame oneOfTwo 0xA9) = .next t ∧ t.cpv = true) ∧
    (inFrame twoOfFour 0x98).funit.Consistent ∧
    (∃ t, perform (.write 0x08 32 0x7) (inFrame twoOfFour 0x98) = .next t ∧ t.cpv = false) :=
  ⟨by decide, by decide, by decide, ⟨_, rfl, by decide⟩, by decide, ⟨_, rfl, by decide⟩⟩

theorem witness_StickyRecordsFailures :
    (∃ t, perform (.write 0x08 32 0x1) (withArg 0xFF) = .next t ∧ t.sticky = true) ∧
    (∃ t, perform .reset { withArg 0xFF with sticky := true } = .next t) ∧
    (∀ e ∈ [HostEvent.write 0x08 32 0x1], e ≠ .reset ∧ ∀ width w, e = .write 0x08 width w → decodeCmd w ≠ some .srst) ∧
    (∃ t, performAll [.write 0x08 32 0x1] (withArg 0x41) = .next t ∧ t.sticky = false) := by
  refine ⟨⟨_, rfl, by decide⟩, ⟨_, rfl⟩, ?_, ⟨_, rfl, by decide⟩⟩
  intro e he
  obtain rfl := List.mem_singleton.mp he
  refine ⟨by simp, ?_⟩
  rintro width w ⟨⟩
  decide

/-- A failure outside and one inside a frame, and the one success whose RESULT is 0xFFFFFFFF (95_test_vectors.md 2.5). -/
theorem witness_FailuresReturnSentinel :
    (∃ t, perform (.write 0x08 32 0x8) (inFrame twoOfFour 0) = .next t ∧ t.code ≠ .ok ∧ t.code ≠ .sequence) ∧
    (inFrame twoOfFour 0).funit.Consistent ∧
    (∃ t, perform (.write 0x08 32 0x2) (withArg 0x110000) = .next t ∧ t.code ≠ .ok) ∧ decodeCmd 0x2 ≠ some .nop ∧
    (∃ t, perform (.write 0x08 32 0x8) { inFrame .empty 0 with fcount := 0xFFFFFFFF } = .next t ∧
      t.code = .ok ∧ t.result = 0xFFFFFFFF) ∧ decodeCmd 0x8 ≠ some .nop :=
  ⟨⟨_, rfl, by decide⟩, by decide, ⟨_, rfl, by decide⟩, by decide, ⟨_, rfl, by decide⟩, by decide⟩

theorem witness_ErrorsPerCommand :
    decodeCmd 0x55 = none ∧ (∃ t, perform (.write 0x08 32 0x55) State.reset = .next t) ∧
    (∃ t, exec .fstart (inFrame oneOfTwo 0xA9) = .next t) ∧ (∃ t, exec .nop (inFrame oneOfTwo 0xA9) = .next t) ∧
    (∃ t, exec .clsb (inFrame oneOfTwo 0xA9) = .next t) ∧ (∃ t, exec .clsc (inFrame oneOfTwo 0xA9) = .next t) ∧
    (∃ t, exec .dec (inFrame oneOfTwo 0xA9) = .next t) ∧ (∃ t, exec .ffeed (inFrame oneOfTwo 0xA9) = .next t) ∧
    (inFrame oneOfTwo 0xA9).funit.Consistent ∧ (∃ t, exec .fend (inFrame oneOfTwo 0xA9) = .next t) :=
  ⟨by decide, ⟨_, rfl⟩, ⟨_, rfl⟩, ⟨_, rfl⟩, ⟨_, rfl⟩, ⟨_, rfl⟩, ⟨_, rfl⟩, ⟨_, rfl⟩, by decide, ⟨_, rfl⟩⟩

theorem witness_ResultsLiveUntilNextCommand :
    (∀ e ∈ [HostEvent.write 0x08 32 0x0], e ≠ .reset ∧ ∀ width w, e = .write 0x08 width w → decodeCmd w = some .nop) ∧
    (∀ e ∈ [HostEvent.write 0x08 32 0x7], e ≠ .reset ∧ ∀ width w, e = .write 0x08 width w →
      decodeCmd w ≠ some .enc ∧ decodeCmd w ≠ some .srst ∧ ∀ n, decodeCmd w ≠ some (.uload n)) ∧
    (∃ t, performAll [.write 0x08 32 0x0] (withArg 0x41) = .next t) ∧
    (∃ t, performAll [.write 0x08 32 0x7] (withArg 0x41) = .next t) := by
  refine ⟨?_, ?_, ⟨_, rfl⟩, ⟨_, rfl⟩⟩ <;>
    · intro e he
      obtain rfl := List.mem_singleton.mp he
      refine ⟨by simp, ?_⟩
      rintro width w ⟨⟩
      decide

theorem witness_UnitWritersLeaveItCanonical :
    (∃ t, exec .enc (withArg 0x20AC) = .next t) ∧ (∃ t, exec (.uload 1) (withArg 0xFFFFFFFF) = .next t) ∧ (1#3).toNat ≤ 4 ∧
    (∃ t, exec .ffeed (inFrame oneOfTwo 0) = .next t) ∧ (inFrame oneOfTwo 0).unit.Canonical :=
  ⟨⟨_, rfl⟩, ⟨_, rfl⟩, by decide, ⟨_, rfl⟩, by decide⟩

/-- Two states that differ in UNIT and RESULT. -/
theorem witness_FrameIgnoresHostUnit :
    Instr.ffeed ∈ [.fstart, .ffeed, .fend] ∧ (inFrame oneOfTwo 0xA9).unit ≠ (withUnit 0x41 0 0 0 1).unit ∧
    (∃ t, exec .ffeed (inFrame oneOfTwo 0xA9) = .next t) ∧
    (∃ t, exec .ffeed { inFrame oneOfTwo 0xA9 with unit := (withUnit 0x41 0 0 0 1).unit, result := 7 } = .next t) :=
  ⟨by decide, by decide, ⟨_, rfl⟩, ⟨_, rfl⟩⟩

theorem witness_HiddenBytesSeenOnlyByFfeed : decodeCmd 0x8 ≠ some .ffeed := by decide

theorem witness_PseudoCommandsExpand : (0#3).toNat ≤ 4 ∧ (4#3).toNat ≤ 4 := by decide

theorem witness_ResetMeetsInvariant : ({ State.reset with pending := [.reset], returned := [1] } : State).Launched := rfl

/-- A state with a pending unit meets the invariant and steps. -/
theorem witness_StepKeepsInvariant :
    State.Inv { inFrame twoOfFour 0x98 with pending := [.write 0x08 32 0x7] } ∧
    ∃ t, step { inFrame twoOfFour 0x98 with pending := [.write 0x08 32 0x7] } = .next t ∧ t.funit.used = 3 :=
  ⟨by constructor <;> decide, _, rfl, by decide⟩

/-- Whole units of each length, one overlong. -/
theorem witness_FrameBuildsWholeUnits :
    State.reset.nulterm = false ∧
    (∀ u ∈ [⟨⟨0x78, 0, 0, 0⟩, 1⟩, ⟨⟨0xC0, 0x80, 0, 0⟩, 2⟩, ⟨⟨0xE2, 0x82, 0xAC, 0⟩, 3⟩, ⟨⟨0xF7, 0xBF, 0xBF, 0xBF⟩, 4⟩],
      MultibyteUnit.Whole u) ∧
    [0x78#8, 0xC0, 0x80] = [⟨⟨0x78, 0, 0, 0⟩, 1⟩, ⟨⟨0xC0, 0x80, 0, 0⟩, 2⟩].flatMap MultibyteUnit.wire := by
  unfold MultibyteUnit.Whole
  decide

theorem witness_EncodedStreamDecodesBack :
    State.reset.nulterm = false ∧ ∀ c ∈ [0x0#32, 0x7F, 0x80, 0x7FF, 0x800, 0xFFFF, 0x10000, 0x10FFFF], c.toNat ≤ 0x10FFFF := by
  simp [State.reset]

end Sys2Proof.Tests
end

section
/-! What one CMD write does to STICKY, CPV, the frame state and FCOUNT (10_state.md R25, R26, R33, R34). -/

namespace Sys2Proof.Machine

section Operand

theorem byteOperand_toNat (s : State) : (byteOperand s).toNat = s.arg.toNat % 256 := by
  simp [byteOperand, BitVec.extractLsb'_toNat]

theorem byteOperand_eq_zero_iff (s : State) : byteOperand s = 0 ↔ s.arg.toNat % 256 = 0 := by
  rw [← byteOperand_toNat, ← BitVec.toNat_inj, BitVec.ofNat_eq_ofNat, BitVec.toNat_ofNat, Nat.zero_mod]

theorem bsl_eq_one_iff (b : Byte) : bsl b = some .one ↔ b.toNat ≤ 0x7F := by
  rw [bsl_ranges]
  split_ifs with h <;> simp <;> omega

end Operand

/-! ## The epilogue of a command -/

/-- The commands that write the frame state (R34). -/
def frameCommands : List Instr := [.fstart, .ffeed, .fend, .srst]

/-- FSTATE, FUNIT and FCOUNT are the same in both states. -/
def SameFrame (s t : State) : Prop := t.fstate = s.fstate ∧ t.funit = s.funit ∧ t.fcount = s.fcount

theorem SameFrame.trans {s t u : State} : SameFrame s t → SameFrame t u → SameFrame s u
  | ⟨h1, h2, h3⟩, ⟨k1, k2, k3⟩ => ⟨k1.trans h1, k2.trans h2, k3.trans h3⟩

/-- What a command with an epilogue (60_exceptions.md R108, R109) does before it. `c` is the command, `none` the ILLEGAL
outcome. -/
structure Prepares (c : Option Instr) (s u : State) : Prop where
  notNop : c ≠ some .nop
  notSrst : c ≠ some .srst
  sticky : u.sticky = s.sticky
  frame : (∀ i ∈ frameCommands, c ≠ some i) → SameFrame s u

/-- How a CMD write can end: NOP and SRST as R100 and R101 say, everything else in one of the three epilogues of
60_exceptions.md R108 and R109, of which only FFEED reaches `emit`. -/
inductive CommandEnds (c : Option Instr) (s : State) : State → Prop
  | kept : c = some .nop → CommandEnds c s s
  | reset : c = some .srst → CommandEnds c s (resetBlock s)
  | finish (r : Word) (u : State) : Prepares c s u → CommandEnds c s (finish r u)
  | emit (r : Word) (u : State) : c = some .ffeed → Prepares c s u → CommandEnds c s (emit r u)
  | raise (k : Code) (u : State) : k ≠ .ok → Prepares c s u → CommandEnds c s (raise k u)

/-- A command with an epilogue that is no frame command writes at most UNIT before it. -/
theorem Prepares.of_unit {c : Option Instr} (s : State) (v : MultibyteUnit) (hn : c ≠ some .nop := by simp)
    (hs : c ≠ some .srst := by simp) : Prepares c s { s with unit := v } :=
  ⟨hn, hs, rfl, fun _ => ⟨rfl, rfl, rfl⟩⟩

theorem Prepares.of_frameCommand {i : Instr} (hi : i ∈ frameCommands ∧ i ≠ .srst) {s u : State}
    (h : u.sticky = s.sticky) : Prepares (some i) s u where
  notNop := by rintro ⟨⟩; exact absurd hi.1 (by decide)
  notSrst := by rintro ⟨⟩; exact hi.2 rfl
  sticky := h
  frame hn := absurd rfl (hn i hi.1)

theorem feed_ends (b : Byte) (s : State) : CommandEnds (some .ffeed) s (feed b s) := by
  have prep {u : State} : u.sticky = s.sticky → Prepares (some .ffeed) s u :=
    .of_frameCommand (by decide)
  obtain ⟨-, h⟩ | ⟨-, -, -, h⟩ | ⟨-, -, -, h⟩ | ⟨-, -, -, -, h⟩ | ⟨-, -, -, -, h⟩ | ⟨l, -, -, -, -, -, h⟩ |
    ⟨c, -, -, -, -, -, h⟩ | ⟨k, -, -, -, -, -, hk, h⟩ | ⟨-, -, -, -, h⟩ := feed_outcomes b s <;> rw [h]
  · exact .raise _ _ (by decide) (prep rfl)
  · exact .raise _ _ (by decide) (prep rfl)
  · exact .finish _ _ (prep rfl)
  · exact .raise _ _ (by decide) (prep rfl)
  · exact .emit _ _ rfl (prep rfl)
  · exact .finish _ _ (prep rfl)
  · exact .emit _ _ rfl (prep rfl)
  · exact .raise _ _ (by rintro rfl; simp at hk) (prep rfl)
  · exact .finish _ _ (prep rfl)

theorem exec_ends {i : Instr} {s t : State} (h : exec i s = .next t) : CommandEnds (some i) s t := by
  obtain ⟨rfl, rfl⟩ | ⟨rfl, -, rfl⟩ | ⟨k, rfl, -, rfl⟩ | ⟨rfl, -, rfl⟩ | ⟨k, rfl, -, rfl⟩ | ⟨rfl, -, rfl⟩ |
    ⟨k, rfl, -, rfl⟩ | ⟨rfl, -, rfl⟩ | ⟨rfl, -, rfl⟩ | ⟨c, rfl, -, rfl⟩ | ⟨n, hn, rfl, rfl⟩ | ⟨n, rfl, -, rfl⟩ |
    ⟨rfl, rfl⟩ | ⟨rfl, rfl⟩ | ⟨rfl, -, rfl⟩ | ⟨rfl, -, -, rfl⟩ | ⟨rfl, -, -, rfl⟩ | ⟨rfl, rfl⟩ := exec_outcomes h
  · exact .kept rfl
  · exact .raise _ _ (by decide) (.of_unit s _)
  · exact .finish _ _ (.of_unit s _)
  · exact .raise _ _ (by decide) (.of_unit s _)
  · exact .finish _ _ (.of_unit s _)
  · exact .raise _ _ (by decide) (.of_unit s _)
  · exact .finish _ _ (.of_unit s _)
  · exact .raise _ _ (by decide) (.of_unit s _)
  · exact .raise _ _ (by decide) (.of_unit s _)
  · exact .finish _ _ (.of_unit s _)
  · exact .finish _ _ (.of_unit s _)
  · exact .raise _ _ (by decide) (.of_unit s _)
  · exact .finish _ _ (.of_frameCommand (by decide) rfl)
  · exact feed_ends _ s
  · exact .raise _ _ (by decide) (.of_frameCommand (by decide) rfl)
  · exact .raise _ _ (by decide) (.of_frameCommand (by decide) rfl)
  · exact .finish _ _ (.of_frameCommand (by decide) rfl)
  · exact .reset rfl

theorem stepCmd_ends {w : Word} {s t : State} (h : stepCmd w s = .next t) : CommandEnds (decodeCmd w) s t := by
  obtain ⟨i, hd, hi⟩ | ⟨hd, rfl⟩ := stepCmd_outcomes h
  · exact hd ▸ exec_ends hi
  · exact hd ▸ .raise _ _ (by decide) (.of_unit s _)

theorem CommandEnds.sticky_iff {c : Option Instr} {s t : State} (h : CommandEnds c s t) :
    t.sticky = true ↔ c ≠ some .srst ∧ (s.sticky = true ∨ c ≠ some .nop ∧ t.code ≠ .ok) := by
  cases h with
  | kept h => simp [h]
  | reset h => simp [h]
  | finish r u hp | emit r u h hp => simp [hp.notSrst, hp.sticky]
  | raise k u hk hp => simp [hp.notSrst, hp.notNop, hk]

theorem CommandEnds.cpv_eq_false {c : Option Instr} {s t : State} (h : CommandEnds c s t) (hn : c ≠ some .nop)
    (hf : c ≠ some .ffeed) : t.cpv = false := by
  cases h with
  | kept h => exact absurd h hn
  | emit r u h => exact absurd h hf
  | reset h | finish r u h | raise k u hk h => rfl

theorem CommandEnds.sameFrame {c : Option Instr} {s t : State} (h : CommandEnds c s t)
    (hc : ∀ i ∈ frameCommands, c ≠ some i) : SameFrame s t := by
  cases h with
  | kept h => exact ⟨rfl, rfl, rfl⟩
  | reset h => exact absurd h (hc _ (by decide))
  | finish r u hp | emit r u h hp | raise k u h hp => exact hp.frame hc

/-! ## What FFEED does to CPV and FCOUNT -/

theorem frameEnd_cpv (s : State) : (frameEnd s).cpv = false := by
  obtain ⟨-, h⟩ | ⟨-, h⟩ := frameEnd_cases s <;> rw [h] <;> rfl

theorem feedLead_cpv_iff (b : Byte) (s : State) : (feedLead b s).cpv = true ↔ bsl b = some .one := by
  obtain ⟨hb, h⟩ | ⟨hb, h⟩ | ⟨l, hb, hl, h⟩ := feedLead_cases b s <;> simp [h, hb]
  exact hl

/-- The last announced byte emits, since its unit decodes (R94, R97). -/
theorem feedContinuation_cpv_iff (b : Byte) {s : State} (hc : s.funit.Consistent) (h0 : s.funit.used.val ≠ 0) :
    (feedContinuation b s).cpv = true ↔ s.funit.used.val + 1 = s.funit.len.val := by
  obtain ⟨hl, h⟩ | ⟨hl, h⟩ := feedContinuation_cases b s
  · obtain ⟨l, -, -, hd⟩ := decodeUnit_filled b hc h0 hl
    simp [h, hl, emitDecoded, hd]
  · simp [h, hl]

theorem feed_cpv_iff (b : Byte) {s : State} (hc : s.funit.Consistent) : (feed b s).cpv = true ↔
    s.fstate = .active ∧ ¬ (s.nulterm = true ∧ b = 0) ∧
      (s.funit.used.val = 0 ∧ bsl b = some .one ∨ s.funit.used.val ≠ 0 ∧ s.funit.used.val + 1 = s.funit.len.val) := by
  obtain ⟨ha, h⟩ | ⟨ha, hz, h⟩ | ⟨ha, hz, h0, h⟩ | ⟨ha, hz, h0, h⟩ := feed_cases b s <;> rw [h]
  · simp [ha]
  · simp [frameEnd_cpv, hz]
  · rw [feedLead_cpv_iff]
    tauto
  · rw [feedContinuation_cpv_iff b hc h0]
    tauto

/-- FCOUNT counts exactly the FFEEDs that emit, in every state. -/
theorem feed_fcount (b : Byte) (s : State) :
    (feed b s).fcount = if (feed b s).cpv = true then s.fcount + 1 else s.fcount := by
  obtain ⟨-, h⟩ | ⟨-, -, -, h⟩ | ⟨-, -, -, h⟩ | ⟨-, -, -, -, h⟩ | ⟨-, -, -, -, h⟩ | ⟨l, -, -, -, -, -, h⟩ |
    ⟨c, -, -, -, -, -, h⟩ | ⟨k, -, -, -, -, -, -, h⟩ | ⟨-, -, -, -, h⟩ := feed_outcomes b s <;> simp [h]

theorem closeFrame_fcount (s : State) : (closeFrame s).fcount = s.fcount := by
  obtain ⟨-, h⟩ | ⟨-, h⟩ := closeFrame_cases s
  · simp [h]
  · obtain ⟨-, h'⟩ | ⟨-, h'⟩ := frameEnd_cases s <;> simp [h, h']

/-! ## Sequences of host events -/

theorem perform_write_ctrl (v : Word) (s : State) :
    perform (.write 0x00 32 v) s = .next (s.setNulterm (decide (v.toNat % 2 = 1))) := by
  rw [← Nat.testBit_zero]
  rfl

theorem perform_keeps_sticky {e : HostEvent} {s t : State} (hr : e ≠ .reset)
    (hw : ∀ width w, e = .write 0x08 width w → decodeCmd w ≠ some .srst) (h : perform e s = .next t)
    (hs : s.sticky = true) : t.sticky = true := by
  obtain ⟨he, -⟩ | ⟨r, -, rfl⟩ | ⟨r, v, -, -, rfl⟩ | ⟨w, he, hc⟩ := perform_outcomes h
  · exact absurd he hr
  · exact hs
  · obtain ⟨-, h'⟩ | ⟨-, h'⟩ | h' := writeReg_outcomes r v s <;> rw [h'] <;> exact hs
  · exact (stepCmd_ends hc).sticky_iff.mpr ⟨hw _ w he, .inl hs⟩

theorem perform_sameFrame {e : HostEvent} {s t : State} (hr : e ≠ .reset)
    (hw : ∀ width w, e = .write 0x08 width w → ∀ i ∈ frameCommands, decodeCmd w ≠ some i) (h : perform e s = .next t) :
    SameFrame s t := by
  obtain ⟨he, -⟩ | ⟨r, -, rfl⟩ | ⟨r, v, -, -, rfl⟩ | ⟨w, he, hc⟩ := perform_outcomes h
  · exact absurd he hr
  · exact ⟨rfl, rfl, rfl⟩
  · obtain ⟨-, h'⟩ | ⟨-, h'⟩ | h' := writeReg_outcomes r v s <;> rw [h'] <;> exact ⟨rfl, rfl, rfl⟩
  · exact (stepCmd_ends hc).sameFrame (hw _ w he)

end Sys2Proof.Machine
end

section
/-! The obligations of 10_state.md. -/

namespace Sys2Proof.Machine

theorem readReg_reset (r : Reg) : readReg State.reset r = 0 := by cases r <;> rfl

/-- Settles O16: R37's values, field by field. -/
theorem resetValues : Obligations.ResetValues :=
  ⟨rfl, rfl, rfl, rfl, rfl, rfl, rfl, rfl, rfl, rfl, readReg_reset⟩

/-- Settles O12: `statusWord_toNat` writes STATUS as a sum of weighted fields, each below the next weight. -/
theorem statusFieldLayout : Obligations.StatusFieldLayout := by
  intro s
  have hcode : s.code.bits.toNat < 8 := s.code.bits.isLt
  have hcpv := s.cpv.toNat_lt
  have hsticky := s.sticky.toNat_lt
  have hfstate : s.fstate.bits.toNat < 4 := s.fstate.bits.isLt
  have hused := s.funit.used.isLt
  have hlen := s.funit.len.isLt
  have hv := statusWord_toNat s
  refine ⟨statusWord s, perform_hostRead .status s, ?_, by omega, by omega, ?_, by omega, by omega, by omega⟩
  · calc (statusWord s).toNat % 8 = s.code.bits.toNat := by omega
      _ = _ := by cases s.code <;> rfl
  · calc (statusWord s).toNat / 32 % 4 = s.fstate.bits.toNat := by omega
      _ = _ := by cases s.fstate <;> rfl

/-- Settles O36: each event keeps the frame state (`perform_sameFrame`), hence a sequence does. -/
theorem frameSurvivesOtherCommands : Obligations.FrameSurvivesOtherCommands := by
  refine ⟨fun es s t hes h => ?_, fun s v => ?_⟩
  · refine performAll_keeps (P := SameFrame s) (fun e he u u' hu hp => ?_) ⟨rfl, rfl, rfl⟩ h
    exact hu.trans (perform_sameFrame (hes e he).1 (hes e he).2 hp)
  · have hd : decodeCmd 0x7 = some .ffeed := by decide
    simp only [performAll, perform_write_ctrl, perform_write_cmd, stepCmd_of_decode hd, exec_ffeed]
    rfl

/-- Settles O38: FCOUNT after each frame command is that command's own lemma; every other word keeps the frame state. -/
theorem fcountCountsEmissions : Obligations.FcountCountsEmissions := by
  refine ⟨rfl, fun s v => rfl, fun s t w h => ?_⟩
  rw [perform_write_cmd] at h
  by_cases hf : ∀ i ∈ frameCommands, decodeCmd w ≠ some i
  · obtain ⟨-, -, hcount⟩ := (stepCmd_ends h).sameFrame hf
    rw [hcount, if_neg, if_neg]
    · exact fun h => hf .ffeed (by decide) h.1
    · exact fun h => h.elim (hf .fstart (by decide)) (hf .srst (by decide))
  · push Not at hf
    obtain ⟨i, hi, hd⟩ := hf
    rw [stepCmd_of_decode hd] at h
    simp only [frameCommands, List.mem_cons, List.not_mem_nil, or_false] at hi
    obtain rfl | rfl | rfl | rfl := hi <;> cases h
    · simp [hd]
    · rw [feed_fcount]
      by_cases hcpv : (feed (byteOperand s) s).cpv = true <;> simp [hd, hcpv, BitVec.toNat_add]
    · simp [hd, closeFrame_fcount]
    · simp [hd]

/-- Settles O39: only FFEED emits, and `feed_cpv_iff` says when. -/
theorem cpvMarksEmissions : Obligations.CpvMarksEmissions := by
  intro s t w hc h hn
  rw [perform_write_cmd] at h
  by_cases hd : decodeCmd w = some .ffeed
  · rw [stepCmd_of_decode hd] at h
    cases h
    rw [feed_cpv_iff _ hc, bsl_eq_one_iff, byteOperand_eq_zero_iff, byteOperand_toNat]
    simp only [hd, true_and]
  · simp only [(stepCmd_ends h).cpv_eq_false hn hd, hd, false_and, Bool.false_eq_true]

/-- Settles O40: `CommandEnds.sticky_iff` for one command, `perform_keeps_sticky` along a sequence. -/
theorem stickyRecordsFailures : Obligations.StickyRecordsFailures := by
  refine ⟨fun s t w h => (stepCmd_ends h).sticky_iff, ?_, fun es s t hes h ht => ?_⟩
  · rintro s t ⟨⟩
    rfl
  · by_contra hs
    have := performAll_keeps (P := fun u => u.sticky = true)
      (fun e he u u' hu hp => perform_keeps_sticky (hes e he).1 (hes e he).2 hp hu) (by simpa using hs) h
    simp [ht] at this

end Sys2Proof.Machine
end

section
/-! The obligations of 20_memory.md. -/

namespace Sys2Proof.Machine

section Reads

variable (s : State)

theorem readReg_ctrl : readReg s .ctrl = BitVec.ofNat 32 s.nulterm.toNat := by
  unfold readReg
  cases s.nulterm <;> rfl

theorem readReg_status : readReg s .status = BitVec.ofNat 32
    (s.code.bits.toNat + 8 * s.cpv.toNat + 16 * s.sticky.toNat + 32 * s.fstate.bits.toNat + 128 * s.funit.used.val
      + 1024 * s.funit.len.val) := by
  rw [← statusWord_toNat, BitVec.ofNat_toNat, BitVec.setWidth_eq]
  rfl

theorem readReg_unitBytes : readReg s .unitBytes = BitVec.ofNat 32
    (s.unit.bytes.b0.toNat + 2 ^ 8 * s.unit.bytes.b1.toNat + 2 ^ 16 * s.unit.bytes.b2.toNat
      + 2 ^ 24 * s.unit.bytes.b3.toNat) := by
  rw [← UnitBytes.pack_toNat, BitVec.ofNat_toNat, BitVec.setWidth_eq]
  rfl

/-- Handing out the value of a read leaves the value of every register (20_memory.md R43). -/
theorem readReg_handOut (v : Word) : readReg (s.handOut v) = readReg s := by
  funext r
  cases r <;> rfl

theorem perform_hostRead_of_readReg {r : Reg} {v : Word} (h : readReg s r = v) :
    perform (hostRead r) s = .next { s with returned := s.returned ++ [v] } := by
  rw [perform_hostRead, h]
  rfl

/-- Each read of a sequence finds the registers as the first one found them, since no read changes them. -/
theorem performAll_hostReads (rs : List Reg) :
    performAll (rs.map hostRead) s = .next { s with returned := s.returned ++ rs.map (readReg s) } := by
  induction rs generalizing s with
  | nil => simp [performAll]
  | cons r rs ih =>
    simp only [List.map_cons, performAll, perform_hostRead]
    rw [ih, readReg_handOut, State.handOut_returned, List.append_assoc]
    rfl

end Reads

/-- Settles O11: each offset is its register's, whose value is written out, and `performAll_hostReads` for any number of
reads. -/
theorem readsReturnRegistersOnly : Obligations.ReadsReturnRegistersOnly := by
  intro s
  refine ⟨?ctrl, ?arg, ?cmd, ?result, ?status, ?unitBytes, ?unitUsed, ?fcount, performAll_hostReads s⟩
  case ctrl => exact perform_hostRead_of_readReg s (readReg_ctrl s)
  case arg => exact perform_hostRead .arg s
  case cmd => exact perform_hostRead .cmd s
  case result => exact perform_hostRead .result s
  case status => exact perform_hostRead_of_readReg s (readReg_status s)
  case unitBytes => exact perform_hostRead_of_readReg s (readReg_unitBytes s)
  case unitUsed => exact perform_hostRead .unitUsed s
  case fcount => exact perform_hostRead .fcount s

end Sys2Proof.Machine
end

section
/-! The obligations of 30_encoding.md: illegal words. -/

namespace Sys2Proof.Machine

/-! ## The fields of a word as numbers (30_encoding.md R53) -/

theorem opField_toNat (w : Word) : (opField w).toNat = w.toNat % 16 := by
  simp [opField, BitVec.extractLsb'_toNat]

theorem countField_toNat (w : Word) : (countField w).toNat = w.toNat / 16 % 8 := by
  simp [countField, BitVec.extractLsb'_toNat, Nat.shiftRight_eq_div_pow]

/-- RSV reaches to the top of the word, so nothing is cut off above it. -/
theorem reservedField_toNat (w : Word) : (reservedField w).toNat = w.toNat / 128 := by
  have hw := w.isLt
  simp only [reservedField, BitVec.extractLsb'_toNat, Nat.shiftRight_eq_div_pow]
  omega

/-! ## Which words are illegal (30_encoding.md R60) -/

/-- The opcodes R54 leaves without a command; 0x5 is ULOAD, which `plainCommand` does not answer. -/
theorem plainCommand_eq_none_iff (op : BitVec 4) :
    plainCommand op = none ↔ op = 0x5 ∨ (0x9 ≤ op.toNat ∧ op.toNat ≤ 0xE) := by
  revert op
  decide

/-- R60's four kinds, field by field, along `decode_cmd`'s tests (R57). -/
theorem decodeCmd_eq_none_iff (w : Word) : decodeCmd w = none ↔
    reservedField w ≠ 0 ∨ (0x9 ≤ (opField w).toNat ∧ (opField w).toNat ≤ 0xE) ∨
      (opField w = 0x5 ∧ 4 < (countField w).toNat) ∨ (opField w ≠ 0x5 ∧ countField w ≠ 0) := by
  unfold decodeCmd
  by_cases hr : reservedField w = 0#25
  · by_cases ho : opField w = 5#4
    · simp [hr, ho]
    · by_cases hn : countField w = 0#3
      · simp [hr, ho, hn, plainCommand_eq_none_iff]
      · simp [hr, ho, hn]
  · simp [hr]

/-- Settles O4: `decodeCmd_eq_none_iff` with the fields as numbers, and the ILLEGAL outcome is `raise .illegal`. -/
theorem illegalWordsReportIllegal : Obligations.IllegalWordsReportIllegal := by
  refine fun w s => ⟨?_, fun h => ?_⟩
  · simp [decodeCmd_eq_none_iff, ← BitVec.toNat_inj, opField_toNat, countField_toNat, reservedField_toNat]
  · rw [perform_write_cmd, stepCmd_of_illegal h]
    rfl

end Sys2Proof.Machine
end

section
/-! The obligations of 40_classify.md. -/

namespace Sys2Proof.Machine

/-! ## The closed forms of the classifiers, one answer at a time (40_classify.md R70, R72) -/

theorem bsl_eq_some_iff (b : Byte) (l : Length) : bsl b = some l ↔
    match l with
    | .one => b.toNat ≤ 0x7F
    | .two => 0xC0 ≤ b.toNat ∧ b.toNat ≤ 0xDF
    | .three => 0xE0 ≤ b.toNat ∧ b.toNat ≤ 0xEF
    | .four => 0xF0 ≤ b.toNat ∧ b.toNat ≤ 0xF7 := by
  rw [bsl_ranges]
  cases l <;> split_ifs <;> simp <;> omega

theorem bsl_eq_none_iff (b : Byte) : bsl b = none ↔ 0x80 ≤ b.toNat ∧ b.toNat ≤ 0xBF ∨ 0xF8 ≤ b.toNat := by
  rw [bsl_ranges]
  split_ifs <;> simp <;> omega

theorem csl_eq_some_iff (c : Word) (l : Length) : csl c = some l ↔
    match l with
    | .one => c.toNat ≤ 0x7F
    | .two => 0x80 ≤ c.toNat ∧ c.toNat ≤ 0x7FF
    | .three => 0x800 ≤ c.toNat ∧ c.toNat ≤ 0xFFFF
    | .four => 0x10000 ≤ c.toNat ∧ c.toNat ≤ 0x10FFFF := by
  rw [csl_bands]
  cases l <;> split_ifs <;> simp <;> omega

theorem csl_eq_none_iff (c : Word) : csl c = none ↔ 0x10FFFF < c.toNat := by
  rw [csl_bands]
  split_ifs <;> simp <;> omega

/-! ## The epilogue of a classifier, field by field (60_exceptions.md R108, R109) -/

theorem finishLength_some (l : Length) (s : State) :
    finishLength (some l) s = { s with result := BitVec.ofNat 32 l.toNat, code := .ok, cpv := false } := rfl

theorem finishLength_none (s : State) :
    finishLength none s = { s with result := 0xFFFFFFFF, code := .invalid, cpv := false, sticky := true } := rfl

theorem exec_clsb_of_length {s : State} {l : Length} (h : bsl (byteOperand s) = some l) :
    exec .clsb s = .next { s with result := BitVec.ofNat 32 l.toNat, code := .ok, cpv := false } := by
  rw [exec_clsb, h, finishLength_some]

theorem exec_clsc_of_length {s : State} {l : Length} (h : csl s.arg = some l) :
    exec .clsc s = .next { s with result := BitVec.ofNat 32 l.toNat, code := .ok, cpv := false } := by
  rw [exec_clsc, codepointOperand, h, finishLength_some]

/-- Settles O20: each clause is `bsl`'s range of the byte, and the epilogue of its answer. -/
theorem clsbClassifiesLeadByte : Obligations.ClsbClassifiesLeadByte := by
  refine ⟨by decide, fun s b hb => ?_⟩
  rw [← byteOperand_toNat] at hb
  subst hb
  refine ⟨fun h => ?one, fun h => ?two, fun h => ?three, fun h => ?four, fun h => ?invalid⟩
  case one => exact exec_clsb_of_length ((bsl_eq_some_iff _ .one).mpr h)
  case two => exact exec_clsb_of_length ((bsl_eq_some_iff _ .two).mpr h)
  case three => exact exec_clsb_of_length ((bsl_eq_some_iff _ .three).mpr h)
  case four => exact exec_clsb_of_length ((bsl_eq_some_iff _ .four).mpr h)
  case invalid => rw [exec_clsb, (bsl_eq_none_iff _).mpr h, finishLength_none]

/-- Settles O21: each clause is `csl`'s band of the codepoint, and the epilogue of its answer. -/
theorem clscClassifiesCodepoint : Obligations.ClscClassifiesCodepoint := by
  refine ⟨by decide, ?_⟩
  rintro s _ rfl
  refine ⟨fun h => ?one, fun h => ?two, fun h => ?three, fun h => ?four, fun h => ?invalid⟩
  case one => exact exec_clsc_of_length ((csl_eq_some_iff _ .one).mpr h)
  case two => exact exec_clsc_of_length ((csl_eq_some_iff _ .two).mpr h)
  case three => exact exec_clsc_of_length ((csl_eq_some_iff _ .three).mpr h)
  case four => exact exec_clsc_of_length ((csl_eq_some_iff _ .four).mpr h)
  case invalid => rw [exec_clsc, codepointOperand, (csl_eq_none_iff _).mpr h, finishLength_none]

/-! ## Length agreement -/

theorem encodeUnit_lead {c : Word} {l : Length} (h : csl c = some l) :
    (encodeUnit c).bytes.get 0 = encodeLead c l := by
  unfold encodeUnit
  rw [h]
  rfl

/-- Settles O23: the lead byte is its row's pattern plus the codepoint's top bits (`encodeLead_toNat`), which the band of a
length-l codepoint keeps inside the range `bsl` gives to l. -/
theorem lengthAgreement : Obligations.LengthAgreement := by
  intro c l h
  have hlead := encodeLead_toNat h
  rw [encodeUnit_lead h, bsl_eq_some_iff, hlead]
  rw [csl_eq_some_iff] at h
  cases l <;> dsimp only at h ⊢ <;> omega

end Sys2Proof.Machine
end

section
/-! The obligations of 41_codec.md. -/

namespace Sys2Proof.Machine

theorem toNat_append_eq_add {m n : Nat} (x : BitVec m) (y : BitVec n) : (x ++ y).toNat = x.toNat * 2 ^ n + y.toNat := by
  rw [BitVec.toNat_append, ← Nat.shiftLeft_add_eq_or_of_lt y.isLt, Nat.shiftLeft_eq]

theorem extractLsb'_toNat_eq_div_mod {w : Nat} (x : BitVec w) (start len : Nat) :
    (x.extractLsb' start len).toNat = x.toNat / 2 ^ start % 2 ^ len := by
  rw [BitVec.extractLsb'_toNat, Nat.shiftRight_eq_div_pow]

/-! ## What `encode` answers (R78, 30_encoding.md R67) -/

theorem csl_isSome_iff (c : Word) : (∃ l, csl c = some l) ↔ c.toNat ≤ 0x10FFFF := by
  rw [← Option.ne_none_iff_exists', ne_eq, csl_eq_none_iff, not_lt]

theorem encodeUnit_of_length {c : Word} {l : Length} (h : csl c = some l) :
    encodeUnit c = ⟨.ofFn (encodeByte c l), l.toFin⟩ := by
  unfold encodeUnit
  rw [h]

theorem encodeUnit_above {c : Word} (h : csl c = none) : encodeUnit c = .empty := by
  unfold encodeUnit
  rw [h]

theorem encodeContinuation_bits (c : Word) (l : Length) (k : Nat) :
    encodeContinuation c l k = 0b10#2 ++ c.extractLsb' (6 * (l.toNat - 1 - k)) 6 := by
  apply BitVec.eq_of_toNat_eq
  rw [encodeContinuation_toNat, toNat_append_eq_add, extractLsb'_toNat_eq_div_mod]
  rfl

theorem encodeLead_bits {c : Word} {l : Length} (h : csl c = some l) : encodeLead c l =
    match l with
    | .one => 0b0#1 ++ c.extractLsb' 0 7
    | .two => 0b110#3 ++ c.extractLsb' 6 5
    | .three => 0b1110#4 ++ c.extractLsb' 12 4
    | .four => 0b11110#5 ++ c.extractLsb' 18 3 := by
  have hlead := encodeLead_toNat h
  rw [csl_eq_some_iff] at h
  apply BitVec.eq_of_toNat_eq
  rw [hlead]
  cases l
  all_goals
    simp only [toNat_append_eq_add, extractLsb'_toNat_eq_div_mod, BitVec.toNat_ofNat] at h ⊢
    omega

theorem encodeUnit_bits {c : Word} {l : Length} (h : csl c = some l) : encodeUnit c =
    match l with
    | .one => ⟨⟨0b0#1 ++ c.extractLsb' 0 7, 0, 0, 0⟩, 1⟩
    | .two => ⟨⟨0b110#3 ++ c.extractLsb' 6 5, 0b10#2 ++ c.extractLsb' 0 6, 0, 0⟩, 2⟩
    | .three =>
      ⟨⟨0b1110#4 ++ c.extractLsb' 12 4, 0b10#2 ++ c.extractLsb' 6 6, 0b10#2 ++ c.extractLsb' 0 6, 0⟩, 3⟩
    | .four =>
      ⟨⟨0b11110#5 ++ c.extractLsb' 18 3, 0b10#2 ++ c.extractLsb' 12 6, 0b10#2 ++ c.extractLsb' 6 6,
        0b10#2 ++ c.extractLsb' 0 6⟩, 4⟩ := by
  rw [encodeUnit_of_length h]
  have hlead := encodeLead_bits h
  cases l <;> simp [UnitBytes.ofFn, encodeByte, encodeContinuation_bits, hlead, Length.toNat, Length.toFin]

/-! ## `decode` undoes `encode` (R82) -/

/-- The band of a length-l codepoint leaves nothing above the payload bits of its bytes. -/
theorem assemblePayload_encodeByte {c : Word} {l : Length} (h : csl c = some l) :
    assemblePayload (.ofFn (encodeByte c l)) l = c := by
  have hlead := encodeLead_toNat h
  rw [csl_eq_some_iff] at h
  apply BitVec.eq_of_toNat_eq
  rw [assemblePayload_toNat]
  cases l
  all_goals
    dsimp only at h
    simp [UnitBytes.ofFn, encodeByte, encodeContinuation_toNat, hlead, Length.toNat]
    omega

theorem decodeUnit_encodeUnit {c : Word} {l : Length} (h : csl c = some l) : decodeUnit (encodeUnit c) = .value c := by
  have hlead := lengthAgreement c l h
  rw [encodeUnit_of_length h] at hlead ⊢
  rw [decodeUnit_of_whole hlead rfl, assemblePayload_encodeByte h]

theorem decodeUnit_encodeUnit_of_le {c : Word} (h : c.toNat ≤ 0x10FFFF) : decodeUnit (encodeUnit c) = .value c :=
  have ⟨_, hl⟩ := (csl_isSome_iff c).mpr h
  decodeUnit_encodeUnit hl

theorem decodeUnit_empty : decodeUnit .empty = .invalid := rfl

/-! ## The codec's commands, by the answer of their function (R84, R85, R86) -/

section Commands

variable {s : State}

theorem exec_enc_of_length {l : Length} (h : csl s.arg = some l) : exec .enc s =
    .next { s with unit := encodeUnit s.arg, result := BitVec.ofNat 32 l.toNat, code := .ok, cpv := false } := by
  rw [exec_enc, codepointOperand, encodeUnit_of_length h]
  cases l <;> rfl

theorem exec_enc_above (h : csl s.arg = none) : exec .enc s = .next { s with
    unit := ⟨⟨0, 0, 0, 0⟩, 0⟩, result := 0xFFFFFFFF, code := .invalid, cpv := false, sticky := true } := by
  rw [exec_enc, codepointOperand, encodeUnit_above h]
  rfl

theorem exec_dec_of_value {c : Word} (h : decodeUnit s.unit = .value c) :
    exec .dec s = .next { s with result := c, code := .ok, cpv := false } := by
  rw [exec_dec, unitOperand, h]
  rfl

theorem exec_dec_of_invalid (h : decodeUnit s.unit = .invalid) :
    exec .dec s = .next { s with result := 0xFFFFFFFF, code := .invalid, cpv := false, sticky := true } := by
  rw [exec_dec, unitOperand, h]
  rfl

theorem exec_dec_of_truncated (h : decodeUnit s.unit = .truncated) :
    exec .dec s = .next { s with result := 0xFFFFFFFF, code := .truncated, cpv := false, sticky := true } := by
  rw [exec_dec, unitOperand, h]
  rfl

end Commands

/-- Settles O27: an encoding is a unit of the length its lead byte announces (`lengthAgreement`), so it decodes to its
payload bits, which are the codepoint's own; ENC hands DEC that unit. -/
theorem encodeDecodeRoundTrip : Obligations.EncodeDecodeRoundTrip := by
  intro c
  rcases hc : csl c with _ | l
  case none =>
    have hn : ¬ c.toNat ≤ 0x10FFFF := not_le.mpr ((csl_eq_none_iff c).mp hc)
    refine ⟨fun h => absurd h hn, fun _ => ⟨encodeUnit_above hc, ?_⟩, ?_⟩
    · rw [encodeUnit_above hc, decodeUnit_empty]
    · rintro s rfl
      exact ⟨_, _, exec_enc_above hc, exec_dec_of_invalid decodeUnit_empty, fun h => absurd h hn,
        fun _ => ⟨rfl, rfl, rfl⟩⟩
  case some =>
    have hn : ¬ 0x10FFFF < c.toNat := not_lt.mpr ((csl_isSome_iff c).mp ⟨l, hc⟩)
    refine ⟨fun _ => decodeUnit_encodeUnit hc, fun h => absurd h hn, ?_⟩
    rintro s rfl
    exact ⟨_, _, exec_enc_of_length hc, exec_dec_of_value (decodeUnit_encodeUnit hc), fun _ => ⟨rfl, rfl⟩,
      fun h => absurd h hn⟩

/-- Settles O24: each clause is `csl`'s band of ARG and the bits of its encoding. -/
theorem encEncodesCodepoint : Obligations.EncEncodesCodepoint := by
  refine ⟨by decide, ?_⟩
  rintro s _ rfl
  have enc {l : Length} (h : csl s.arg = some l) := encodeUnit_bits h ▸ exec_enc_of_length h
  refine ⟨fun h => ?one, fun h => ?two, fun h => ?three, fun h => ?four, fun h => ?above⟩
  case one => exact enc ((csl_eq_some_iff _ .one).mpr h)
  case two => exact enc ((csl_eq_some_iff _ .two).mpr h)
  case three => exact enc ((csl_eq_some_iff _ .three).mpr h)
  case four => exact enc ((csl_eq_some_iff _ .four).mpr h)
  case above => exact exec_enc_above ((csl_eq_none_iff _).mpr h)

/-! ## What `decode` answers, by the range of the lead byte (R80) -/

theorem assemblePayload_bits (u : UnitBytes) (l : Length) : assemblePayload u l =
    match l with
    | .one => 0#25 ++ u.b0.extractLsb' 0 7
    | .two => 0#21 ++ u.b0.extractLsb' 0 5 ++ u.b1.extractLsb' 0 6
    | .three => 0#16 ++ u.b0.extractLsb' 0 4 ++ u.b1.extractLsb' 0 6 ++ u.b2.extractLsb' 0 6
    | .four => 0#11 ++ u.b0.extractLsb' 0 3 ++ u.b1.extractLsb' 0 6 ++ u.b2.extractLsb' 0 6 ++ u.b3.extractLsb' 0 6 := by
  apply BitVec.eq_of_toNat_eq
  rw [assemblePayload_toNat]
  cases l <;> simp only [toNat_append_eq_add, extractLsb'_toNat_eq_div_mod, BitVec.toNat_ofNat] <;> omega

section Decode

variable {u : MultibyteUnit} {l : Length}

theorem decodeUnit_of_used_zero (h : u.used.val = 0) : decodeUnit u = .invalid := if_pos h

theorem decodeUnit_of_no_lead (h : bsl u.bytes.b0 = none) : decodeUnit u = .invalid := by
  unfold decodeUnit
  rw [show u.bytes.get 0 = u.bytes.b0 from rfl, h, ite_self]

theorem decodeUnit_of_short (h0 : u.used.val ≠ 0) (hl : bsl u.bytes.b0 = some l) (h : u.used.val < l.toNat) :
    decodeUnit u = .truncated := by
  unfold decodeUnit
  rw [if_neg h0, show u.bytes.get 0 = u.bytes.b0 from rfl, hl]
  exact if_pos h

theorem decodeUnit_of_long (hl : bsl u.bytes.b0 = some l) (h : l.toNat < u.used.val) : decodeUnit u = .invalid := by
  unfold decodeUnit
  rw [if_neg (by omega), show u.bytes.get 0 = u.bytes.b0 from rfl, hl]
  exact (if_neg (by omega)).trans (if_pos h)

end Decode

/-- The spec's four ranges of lead bytes, each with the length it announces (40_classify.md R70). -/
theorem exists_length_of_leadRange {lo hi len : Nat} {b : Byte}
    (hmem : (lo, hi, len) ∈ [(0x00, 0x7F, 1), (0xC0, 0xDF, 2), (0xE0, 0xEF, 3), (0xF0, 0xF7, 4)])
    (hlo : lo ≤ b.toNat) (hhi : b.toNat ≤ hi) : ∃ l : Length, bsl b = some l ∧ l.toNat = len := by
  simp only [List.mem_cons, Prod.mk.injEq, List.not_mem_nil, or_false] at hmem
  obtain ⟨rfl, rfl, rfl⟩ | ⟨rfl, rfl, rfl⟩ | ⟨rfl, rfl, rfl⟩ | ⟨rfl, rfl, rfl⟩ := hmem
  · exact ⟨.one, (bsl_eq_some_iff b .one).mpr hhi, rfl⟩
  · exact ⟨.two, (bsl_eq_some_iff b .two).mpr ⟨hlo, hhi⟩, rfl⟩
  · exact ⟨.three, (bsl_eq_some_iff b .three).mpr ⟨hlo, hhi⟩, rfl⟩
  · exact ⟨.four, (bsl_eq_some_iff b .four).mpr ⟨hlo, hhi⟩, rfl⟩

theorem exec_dec_of_whole {s : State} {l : Length} (hl : bsl s.unit.bytes.b0 = some l) (hu : s.unit.used.val = l.toNat) :
    exec .dec s = .next { s with result := assemblePayload s.unit.bytes l, code := .ok, cpv := false } :=
  exec_dec_of_value (decodeUnit_of_whole hl (Fin.ext (hu.trans l.toFin_val.symm)))

/-- Settles O25: each clause is an answer of `decode`, by `bsl`'s range of the lead byte, and DEC's epilogue for it. -/
theorem decDecodesUnit : Obligations.DecDecodesUnit := by
  refine ⟨by decide, ?_⟩
  rintro s _ _ _ rfl rfl rfl
  have dec {l : Length} (hl : bsl s.unit.bytes.b0 = some l) (hu : s.unit.used.val = l.toNat) :=
    assemblePayload_bits s.unit.bytes l ▸ exec_dec_of_whole hl hu
  refine ⟨fun h => ?empty, fun _ h => ?noLead, fun lo hi len hmem hlo hhi h0 => ?wrongLength,
    fun hu h => ?one, fun hu h => ?two, fun hu h => ?three, fun hu h => ?four⟩
  case empty => exact exec_dec_of_invalid (decodeUnit_of_used_zero h)
  case noLead => exact exec_dec_of_invalid (decodeUnit_of_no_lead ((bsl_eq_none_iff _).mpr h))
  case wrongLength =>
    obtain ⟨l, hl, rfl⟩ := exists_length_of_leadRange hmem hlo hhi
    exact ⟨fun h => exec_dec_of_truncated (decodeUnit_of_short h0 hl h),
      fun h => exec_dec_of_invalid (decodeUnit_of_long hl h)⟩
  case one => exact dec ((bsl_eq_some_iff _ .one).mpr h) hu
  case two => exact dec ((bsl_eq_some_iff _ .two).mpr h) hu
  case three => exact dec ((bsl_eq_some_iff _ .three).mpr h) hu
  case four => exact dec ((bsl_eq_some_iff _ .four).mpr h) hu

/-! ## ULOAD (R86) -/

theorem loadUnit_of_count (n : Fin 5) (s : State) :
    loadUnit (BitVec.ofNat 3 n.val) s = finish (BitVec.ofNat 32 n.val) (s.setUnit (loadedUnit s n)) := by
  have hn : (BitVec.ofNat 3 n.val).toNat = n.val := by
    rw [BitVec.toNat_ofNat]
    omega
  simp [loadUnit, hn]

theorem decodeCmd_uload :
    ∀ n : Fin 5, decodeCmd (BitVec.ofNat 32 (5 + 16 * n.val)) = some (.uload (BitVec.ofNat 3 n.val)) := by
  decide

/-- Settles O26: the word by its five values, and the loaded unit byte by byte. -/
theorem uloadFillsUnit : Obligations.UloadFillsUnit := by
  refine fun s n => ⟨decodeCmd_uload n, ?_⟩
  rw [exec_uload, loadUnit_of_count]
  rfl

/-- Settles O28: `decode` undoes `encode` on the codepoints; a value above them encodes to the empty unit, which does not
decode, so no unit that decodes is given back from there. -/
theorem encodeInjectiveDecodeNot : Obligations.EncodeInjectiveDecodeNot := by
  refine ⟨fun c d hc hd h => ?injective, by decide, by decide, by decide, by decide,
    fun u c hu => ⟨fun h => ?produced, ?givenBack⟩⟩
  case injective =>
    exact Decoded.value.inj (by rw [← decodeUnit_encodeUnit_of_le hc, h, decodeUnit_encodeUnit_of_le hd])
  case produced =>
    rcases hc : csl c with _ | l
    case none =>
      rw [← h, encodeUnit_above hc, decodeUnit_empty] at hu
      cases hu
    case some => exact ⟨c, (csl_isSome_iff c).mp ⟨l, hc⟩, h.symm⟩
  case givenBack =>
    rintro ⟨d, hd, rfl⟩
    rw [Decoded.value.inj ((decodeUnit_encodeUnit_of_le hd).symm.trans hu)]

/-! ## UNIT stays canonical (R87) -/

theorem MultibyteUnit.empty_canonical : MultibyteUnit.empty.Canonical := by decide

/-- A unit whose bytes are given by their index is canonical when they are 0 from its count on. -/
theorem MultibyteUnit.canonical_ofFn {f : Nat → Byte} {n : Fin 5} (h : ∀ i, n.val ≤ i → f i = 0) :
    MultibyteUnit.Canonical ⟨.ofFn f, n⟩ := fun i hi => (UnitBytes.get_ofFn f i).trans (h i hi)

theorem encodeUnit_canonical (c : Word) : (encodeUnit c).Canonical := by
  obtain ⟨-, h⟩ | ⟨l, -, h⟩ := encodeUnit_cases c <;> rw [h]
  · exact MultibyteUnit.empty_canonical
  · refine MultibyteUnit.canonical_ofFn fun i hi => ?_
    rw [Length.toFin_val] at hi
    have hpos : 0 < l.toNat := by cases l <;> decide
    rw [encodeByte, if_neg (by omega), if_neg (by omega)]

theorem loadedUnit_canonical (s : State) (n : Fin 5) : (loadedUnit s n).Canonical :=
  MultibyteUnit.canonical_ofFn fun _ hi => if_neg (not_lt.mpr hi)

/-! ### What a command leaves in UNIT: ENC, ULOAD and SRST write it, no other command does (10_state.md R38) -/

theorem finishLength_unit (l : Option Length) (s : State) : (finishLength l s).unit = s.unit := by
  obtain ⟨-, h⟩ | ⟨_, -, h⟩ := finishLength_cases l s <;> rw [h] <;> rfl

theorem finishEncoded_unit (u : MultibyteUnit) (s : State) : (finishEncoded u s).unit = s.unit := by
  obtain ⟨-, h⟩ | ⟨-, h⟩ := finishEncoded_cases u s <;> rw [h] <;> rfl

theorem finishDecoded_unit (d : Decoded) (s : State) : (finishDecoded d s).unit = s.unit := by
  obtain ⟨-, h⟩ | ⟨-, h⟩ | ⟨_, -, h⟩ := finishDecoded_cases d s <;> rw [h] <;> rfl

theorem frameEnd_unit (s : State) : (frameEnd s).unit = s.unit := by
  obtain ⟨-, h⟩ | ⟨-, h⟩ := frameEnd_cases s <;> rw [h] <;> rfl

theorem closeFrame_unit (s : State) : (closeFrame s).unit = s.unit := by
  obtain ⟨-, h⟩ | ⟨-, h⟩ := closeFrame_cases s <;> rw [h]
  · rfl
  · exact frameEnd_unit s

theorem feed_unit (b : Byte) (s : State) : (feed b s).unit = s.unit := by
  obtain ⟨-, h⟩ | ⟨-, -, -, h⟩ | ⟨-, -, -, h⟩ | ⟨-, -, -, -, h⟩ | ⟨-, -, -, -, h⟩ | ⟨_, -, -, -, -, -, h⟩ |
    ⟨_, -, -, -, -, -, h⟩ | ⟨_, -, -, -, -, -, -, h⟩ | ⟨-, -, -, -, h⟩ := feed_outcomes b s <;> rw [h] <;> rfl

/-- UNIT after a command. The term ULOAD with a count above 4 has the ILLEGAL outcome, which keeps it (log 8). -/
def unitAfter (s : State) : Instr → MultibyteUnit
  | .enc => encodeUnit s.arg
  | .uload n => if h : n.toNat < 5 then loadedUnit s ⟨n.toNat, h⟩ else s.unit
  | .srst => .empty
  | .nop | .clsb | .clsc | .dec | .fstart | .ffeed | .fend => s.unit

theorem unitAfter_uload {s : State} {n : BitVec 3} (h : n.toNat < 5) :
    unitAfter s (.uload n) = loadedUnit s ⟨n.toNat, h⟩ := dif_pos h

theorem unitAfter_uload_illegal {s : State} {n : BitVec 3} (h : 5 ≤ n.toNat) : unitAfter s (.uload n) = s.unit :=
  dif_neg (not_lt.mpr h)

theorem loadUnit_unit (n : BitVec 3) (s : State) : (loadUnit n s).unit = unitAfter s (.uload n) := by
  obtain ⟨hn, h⟩ | ⟨hn, h⟩ := loadUnit_cases n s <;> rw [h]
  · exact (unitAfter_uload hn).symm
  · exact (unitAfter_uload_illegal hn).symm

theorem exec_unit {i : Instr} {s t : State} (h : exec i s = .next t) : t.unit = unitAfter s i := by
  cases i <;> cases h
  case nop => rfl
  case clsb => exact finishLength_unit _ s
  case clsc => exact finishLength_unit _ s
  case enc => exact finishEncoded_unit _ _
  case dec => exact finishDecoded_unit _ s
  case uload n => exact loadUnit_unit n s
  case fstart => rfl
  case ffeed => exact feed_unit _ s
  case fend => exact closeFrame_unit s
  case srst => rfl

theorem unitAfter_canonical {s : State} (hs : s.unit.Canonical) (i : Instr) : (unitAfter s i).Canonical := by
  cases i with
  | enc => exact encodeUnit_canonical s.arg
  | uload n =>
    obtain hn | hn := lt_or_ge n.toNat 5
    · exact unitAfter_uload hn ▸ loadedUnit_canonical s _
    · exact unitAfter_uload_illegal hn ▸ hs
  | srst => exact MultibyteUnit.empty_canonical
  | nop | clsb | clsc | dec | fstart | ffeed | fend => exact hs

/-- Settles O44: by what each command leaves in UNIT; the three writers leave a canonical unit whatever it held before. -/
theorem unitWritersLeaveItCanonical : Obligations.UnitWritersLeaveItCanonical := by
  refine ⟨MultibyteUnit.empty_canonical, fun s t i h => ?_⟩
  rw [exec_unit h]
  refine ⟨?writers, fun hs => unitAfter_canonical hs i⟩
  case writers =>
    rintro (rfl | rfl | ⟨n, hn, rfl⟩)
    · exact encodeUnit_canonical s.arg
    · exact MultibyteUnit.empty_canonical
    · exact unitAfter_uload (Nat.lt_succ_of_le hn) ▸ loadedUnit_canonical s _

end Sys2Proof.Machine
end

section
/-! The obligations of 42_frame.md: the frame commands and the frame state machine. -/

namespace Sys2Proof.Machine

/-! ## The frame commands, one path at a time (42_frame.md R93 to R95) -/

section Paths

variable {b : Byte} {s : State} {l : Length}

theorem closeFrame_of_inactive (h : s.fstate ≠ .active) : closeFrame s = raise .sequence s := if_pos h

theorem closeFrame_of_pending (ha : s.fstate = .active) (h0 : s.funit.used ≠ 0) :
    closeFrame s = raise .truncated (s.setFstate .error) := by
  rw [closeFrame, if_neg (not_not.mpr ha), frameEnd, if_pos (Fin.val_ne_zero_iff.mpr h0)]

theorem closeFrame_of_empty (ha : s.fstate = .active) (h0 : s.funit.used = 0) :
    closeFrame s = finish s.fcount (s.setFstate .done) := by
  rw [closeFrame, if_neg (not_not.mpr ha), frameEnd, if_neg (not_not.mpr (Fin.val_eq_zero_iff.mpr h0))]

theorem feed_of_inactive (h : s.fstate ≠ .active) : feed b s = raise .sequence s := if_pos h

/-- In every frame state the NULTERM terminator does what FEND does (R93). -/
theorem feed_of_terminator (hz : s.nulterm = true ∧ b = 0) : feed b s = closeFrame s := by
  rw [feed, if_pos hz, closeFrame]

theorem feed_of_start (ha : s.fstate = .active) (hz : ¬ (s.nulterm = true ∧ b = 0)) (h0 : s.funit.used = 0) :
    feed b s = feedLead b s := by
  rw [feed, if_neg (not_not.mpr ha), if_neg hz, if_pos (Fin.val_eq_zero_iff.mpr h0)]

theorem feed_of_pending (ha : s.fstate = .active) (hz : ¬ (s.nulterm = true ∧ b = 0)) (h0 : s.funit.used ≠ 0) :
    feed b s = feedContinuation b s := by
  rw [feed, if_neg (not_not.mpr ha), if_neg hz, if_neg (Fin.val_ne_zero_iff.mpr h0)]

theorem feedLead_of_invalid (h : bsl b = none) : feedLead b s = raise .invalid (s.setFstate .error) := by
  rw [feedLead, h]

theorem feedLead_of_one (h : bsl b = some .one) : feedLead b s = emit (zext32 b) (s.setFcount (s.fcount + 1)) := by
  obtain ⟨hb, -⟩ | ⟨-, hf⟩ | ⟨l, hb, hl, -⟩ := feedLead_cases b s
  · simp [h] at hb
  · exact hf
  · exact absurd (Option.some.inj (hb.symm.trans h)) hl

theorem feedLead_of_multibyte (h : bsl b = some l) (hl : l ≠ .one) :
    feedLead b s = finish 0 (s.setFunit ⟨s.funit.bytes.set 0 b, 1, l.toFin⟩) := by
  rw [feedLead, h]
  cases l
  case one => exact absurd rfl hl
  all_goals rfl

theorem Length.toFin_injective : Function.Injective Length.toFin := by
  intro k l
  cases k <;> cases l <;> decide

theorem feedContinuation_of_inner {m : Fin 4} (hm : m.val = s.funit.used.val + 1) (hlt : m.val < s.funit.len.val) :
    feedContinuation b s = finish 0 (s.setFunit ⟨filledBytes b s, m, s.funit.len⟩) := by
  rw [feedContinuation, if_neg (by omega), ← hm, Fin.ofNat_val_eq_self]

/-- Under 10_state.md R32 the byte that completes a unit always emits (R94, R97). -/
theorem feedContinuation_of_last (hc : s.funit.Consistent) (h0 : s.funit.used ≠ 0) (hlen : s.funit.len = l.toFin)
    (hused : s.funit.used.val + 1 = l.toNat) : feedContinuation b s =
      emit (assemblePayload (filledBytes b s) l) ((s.setFunit .empty).setFcount (s.fcount + 1)) := by
  have hlast : s.funit.used.val + 1 = s.funit.len.val := by rw [hused, hlen, Length.toFin_val]
  obtain ⟨k, -, hk, hd⟩ := decodeUnit_filled b hc (Fin.val_ne_zero_iff.mpr h0) hlast
  obtain rfl : k = l := Length.toFin_injective (hk.symm.trans hlen)
  rw [feedContinuation, if_pos hlast, emitDecoded, hd]
  rfl

/-- The spec's three ranges of lead bytes of longer units, each with the length it announces (40_classify.md R70). -/
theorem exists_length_of_multibyteRange {lo hi : Nat} {len : Fin 5}
    (hmem : (lo, hi, len) ∈ [(0xC0, 0xDF, (2 : Fin 5)), (0xE0, 0xEF, 3), (0xF0, 0xF7, 4)])
    (hlo : lo ≤ b.toNat) (hhi : b.toNat ≤ hi) : ∃ l, bsl b = some l ∧ l ≠ .one ∧ l.toFin = len := by
  simp only [List.mem_cons, Prod.mk.injEq, List.not_mem_nil, or_false] at hmem
  obtain ⟨rfl, rfl, rfl⟩ | ⟨rfl, rfl, rfl⟩ | ⟨rfl, rfl, rfl⟩ := hmem
  · exact ⟨.two, (bsl_eq_some_iff b .two).mpr ⟨hlo, hhi⟩, by decide, rfl⟩
  · exact ⟨.three, (bsl_eq_some_iff b .three).mpr ⟨hlo, hhi⟩, by decide, rfl⟩
  · exact ⟨.four, (bsl_eq_some_iff b .four).mpr ⟨hlo, hhi⟩, by decide, rfl⟩

end Paths

/-- Settles O31: every field FSTART writes is written whatever it held. -/
theorem fstartOpensFrame : Obligations.FstartOpensFrame := ⟨by decide, exec_fstart⟩

/-- Settles O32: the terminator runs FEND's own function, so FEND's three ends are both commands'. -/
theorem frameEndClosesFrame : Obligations.FrameEndClosesFrame := by
  refine ⟨by decide, fun s i hi => ?_⟩
  have hclose : exec i s = .next (closeFrame s) := by
    obtain rfl | ⟨rfl, hn, hz⟩ := hi
    · exact exec_fend s
    · rw [exec_ffeed, feed_of_terminator ⟨hn, (byteOperand_eq_zero_iff s).mpr hz⟩]
  rw [hclose]
  refine ⟨fun h => ?inactive, fun ha h0 => ?pending, fun ha h0 => ?empty⟩
  case inactive => rw [closeFrame_of_inactive h]; rfl
  case pending => rw [closeFrame_of_pending ha h0]; rfl
  case empty => rw [closeFrame_of_empty ha h0]; rfl

/-- Settles O33: FFEED takes one of `feed`'s paths; the byte that completes a unit emits the payload bits of its bytes. -/
theorem ffeedFeedsOneByte : Obligations.FfeedFeedsOneByte := by
  refine ⟨by decide, fun s b hb => ?_⟩
  have hexec : exec .ffeed s = .next (feed b s) := hb ▸ exec_ffeed s
  rw [hexec]
  refine ⟨fun h => ?inactive, fun ha hz => ⟨fun h0 => ?truncated, fun h0 => ?done⟩, fun ha hz h0 => ?start,
    fun ha hz h0 hc => ?inside⟩
  case inactive => rw [feed_of_inactive h]; rfl
  case truncated => rw [feed_of_terminator hz, closeFrame_of_pending ha h0]; rfl
  case done => rw [feed_of_terminator hz, closeFrame_of_empty ha h0]; rfl
  case start =>
    rw [feed_of_start ha hz h0]
    refine ⟨fun h => ?invalid, fun h => ?one, fun lo hi len hmem hlo hhi => ?lead⟩
    case invalid => rw [feedLead_of_invalid ((bsl_eq_none_iff b).mpr h)]; rfl
    case one => rw [feedLead_of_one ((bsl_eq_one_iff b).mpr h)]; rfl
    case lead =>
      obtain ⟨l, hl, hone, rfl⟩ := exists_length_of_multibyteRange hmem hlo hhi
      rw [feedLead_of_multibyte hl hone]
      rfl
  case inside =>
    rw [feed_of_pending ha hz h0]
    have last {l : Length} (hlen : s.funit.len = l.toFin) (hused : s.funit.used.val + 1 = l.toNat) :=
      assemblePayload_bits (filledBytes b s) l ▸ feedContinuation_of_last (b := b) hc h0 hlen hused
    refine ⟨fun m hm hlt => ?inner, fun hu hlen => ?two, fun hu hlen => ?three, fun hu hlen => ?four⟩
    case inner => rw [feedContinuation_of_inner hm hlt]; rfl
    case two => rw [last (l := .two) hlen (by rw [hu]; rfl), filledBytes, hu]; rfl
    case three => rw [last (l := .three) hlen (by rw [hu]; rfl), filledBytes, hu]; rfl
    case four => rw [last (l := .four) hlen (by rw [hu]; rfl), filledBytes, hu]; rfl

/-! ## The frame state machine (42_frame.md R89) -/

/-- FFEED and FEND outside an open frame (R94, R95). -/
theorem exec_of_inactive {i : Instr} {s : State} (h : s.fstate ≠ .active) (hi : i = .ffeed ∨ i = .fend) :
    exec i s = .next (raise .sequence s) := by
  obtain rfl | rfl := hi
  · rw [exec_ffeed, feed_of_inactive h]
  · rw [exec_fend, closeFrame_of_inactive h]

section Transitions

variable {b : Byte} {s : State}

theorem closeFrame_transition (ha : s.fstate = .active) : ((closeFrame s).fstate, (closeFrame s).code) =
    if s.funit.used = 0 then (.done, .ok) else (.error, .truncated) := by
  split_ifs with h0
  · rw [closeFrame_of_empty ha h0]; rfl
  · rw [closeFrame_of_pending ha h0]; rfl

theorem feedLead_transition (ha : s.fstate = .active) : ((feedLead b s).fstate, (feedLead b s).code) =
    if bsl b = none then (.error, .invalid) else (.active, .ok) := by
  obtain ⟨hb, h⟩ | ⟨hb, h⟩ | ⟨l, hb, -, h⟩ := feedLead_cases b s <;> simp [h, hb, ha]

/-- Inside a unit no byte fails, since the byte that completes it decodes (R94, R97). -/
theorem feedContinuation_transition (ha : s.fstate = .active) (hc : s.funit.Consistent) (h0 : s.funit.used ≠ 0) :
    ((feedContinuation b s).fstate, (feedContinuation b s).code) = (.active, .ok) := by
  obtain ⟨hlast, -⟩ | ⟨-, h⟩ := feedContinuation_cases b s
  · obtain ⟨l, -, -, hlen, -⟩ := hc.pending (Fin.val_ne_zero_iff.mpr h0)
    rw [feedContinuation_of_last hc h0 hlen (by rw [hlast, hlen, Length.toFin_val])]
    simp [ha]
  · simp [h, ha]

theorem feed_transition (ha : s.fstate = .active) (hc : s.funit.Consistent) : ((feed b s).fstate, (feed b s).code) =
    if s.nulterm = true ∧ b = 0 then if s.funit.used = 0 then (.done, .ok) else (.error, .truncated)
    else if s.funit.used = 0 ∧ bsl b = none then (.error, .invalid) else (.active, .ok) := by
  by_cases hz : s.nulterm = true ∧ b = 0
  · rw [feed_of_terminator hz, closeFrame_transition ha, if_pos hz]
  · by_cases h0 : s.funit.used = 0
    · rw [feed_of_start ha hz h0, feedLead_transition ha, if_neg hz]
      simp only [h0, true_and]
    · rw [feed_of_pending ha hz h0, feedContinuation_transition ha hc h0, if_neg hz, if_neg (h0 ·.1)]

end Transitions

/-- Settles O34: one transition lemma per frame command; every other word keeps the frame state. -/
theorem frameStateMachine : Obligations.FrameStateMachine := by
  refine fun s => ⟨?fstart, ?reset, fun t hc ha h => ?ffeed, fun t ha h => ?fend, fun t i ha hi h => ?inactive,
    fun t w h hw => ?other⟩
  case fstart =>
    rintro t ⟨⟩
    exact ⟨rfl, rfl⟩
  case reset =>
    rintro t (⟨⟨⟩⟩ | ⟨⟨⟩⟩)
    · exact ⟨rfl, rfl⟩
    · exact ⟨rfl, rfl⟩
  case ffeed =>
    cases h
    simp only [← byteOperand_eq_zero_iff]
    exact feed_transition ha hc
  case fend =>
    cases h
    exact closeFrame_transition ha
  case inactive =>
    rw [exec_of_inactive ha hi] at h
    cases h
    exact ⟨rfl, rfl⟩
  case other =>
    have hsub : frameCommands ⊆ [.fstart, .srst, .ffeed, .fend] := by decide
    exact ((stepCmd_ends h).sameFrame fun i hi => hw i (hsub hi)).1

/-! ## A failed frame (42_frame.md R96) -/

theorem writeReg_sameFrame (r : Reg) (v : Word) (s : State) : SameFrame s (writeReg r v s) := by
  cases r <;> exact ⟨rfl, rfl, rfl⟩

theorem stepCmd_sameFrame_of_error {w : Word} {s t : State} (hs : s.fstate = .error)
    (hw : decodeCmd w ≠ some .fstart ∧ decodeCmd w ≠ some .srst) (h : stepCmd w s = .next t) : SameFrame s t := by
  by_cases hf : ∃ i, (i = .ffeed ∨ i = .fend) ∧ decodeCmd w = some i
  · obtain ⟨i, hi, hd⟩ := hf
    rw [stepCmd_of_decode hd, exec_of_inactive (by simp [hs]) hi] at h
    cases h
    exact ⟨rfl, rfl, rfl⟩
  · refine (stepCmd_ends h).sameFrame fun i hi hd => ?_
    simp only [frameCommands, List.mem_cons, List.not_mem_nil, or_false] at hi
    obtain rfl | rfl | rfl | rfl := hi
    · exact hw.1 hd
    · exact hf ⟨_, .inl rfl, hd⟩
    · exact hf ⟨_, .inr rfl, hd⟩
    · exact hw.2 hd

theorem perform_sameFrame_of_error {e : HostEvent} {s t : State} (hs : s.fstate = .error) (hr : e ≠ .reset)
    (hw : ∀ width w, e = .write 0x08 width w → decodeCmd w ≠ some .fstart ∧ decodeCmd w ≠ some .srst)
    (h : perform e s = .next t) : SameFrame s t := by
  obtain ⟨he, -⟩ | ⟨r, -, rfl⟩ | ⟨r, v, -, -, rfl⟩ | ⟨w, he, hc⟩ := perform_outcomes h
  · exact absurd he hr
  · exact ⟨rfl, rfl, rfl⟩
  · exact writeReg_sameFrame r v s
  · exact stepCmd_sameFrame_of_error hs (hw _ w he) hc

/-- Settles O37: in ERROR each event keeps the whole frame state, ERROR with it, hence a sequence does. -/
theorem failedFrameIsTerminal : Obligations.FailedFrameIsTerminal := by
  refine ⟨fun s i hs hi => ?epilogue, fun es s t hs hes h => ?sequence⟩
  case epilogue =>
    rw [exec_of_inactive (by simp [hs]) hi]
    rfl
  case sequence =>
    have hkept : SameFrame s t := performAll_keeps (P := SameFrame s) (fun e he u u' hu hp =>
      hu.trans (perform_sameFrame_of_error (hu.1.trans hs) (hes e he).1 (hes e he).2 hp)) ⟨rfl, rfl, rfl⟩ h
    obtain ⟨hfstate, hfunit, hfcount⟩ := hkept
    exact ⟨hfstate.trans hs, hfunit, hfcount⟩

end Sys2Proof.Machine
end

section
/-! The obligations of 43_control.md. -/

namespace Sys2Proof.Machine

/-- Settles O19 (R100). -/
theorem nopChangesNothing : Obligations.NopChangesNothing := exec_nop

/-! ## A CMD write is total (43_control.md R106) -/

theorem exec_total (i : Instr) (s : State) : ∃ t, exec i s = .next t := by cases i <;> exact ⟨_, rfl⟩

theorem stepCmd_total (w : Word) (s : State) : ∃ t, stepCmd w s = .next t := by
  cases hd : decodeCmd w with
  | some i => exact stepCmd_of_decode hd s ▸ exec_total i s
  | none => exact ⟨_, stepCmd_of_illegal hd s⟩

/-- Only reset and the writes to CTRL, ARG and CMD reach the block: a read hands out a value, any other write does nothing. -/
theorem perform_changes_returned_only {e : HostEvent} {s t : State} (h : perform e s = .next t) (hr : e ≠ .reset)
    (hw : ∀ r ∈ [Reg.ctrl, .arg, .cmd], ∀ v, e ≠ hostWrite r v) : t = { s with returned := t.returned } := by
  obtain ⟨he, -⟩ | ⟨r, -, rfl⟩ | ⟨r, v, he, -, rfl⟩ | ⟨w, he, -⟩ := perform_outcomes h
  · exact absurd he hr
  · rfl
  · obtain ⟨rfl, -⟩ | ⟨rfl, -⟩ | hkept := writeReg_outcomes r v s
    · exact absurd he (hw _ (by decide) v)
    · exact absurd he (hw _ (by decide) v)
    · rw [hkept]
  · exact absurd he (hw .cmd (by decide) w)

/-- Settles O8: the next state exists by `stepCmd_total` and is the only one since `perform` is a function; the other
events are `perform_changes_returned_only`'s. -/
theorem cmdWriteIsTotal : Obligations.CmdWriteIsTotal := by
  refine ⟨fun w s => ?total, fun e s t h hr hw => perform_changes_returned_only h hr fun r hmem => ?others⟩
  case total =>
    obtain ⟨t, ht⟩ := stepCmd_total w s
    refine ⟨t, ⟨ht, fun i hd => ?decoded, fun hd => ?illegal⟩, fun u ⟨hu, _⟩ => ?unique⟩
    case decoded => rw [← stepCmd_of_decode hd, ht]
    case illegal =>
      rw [stepCmd_of_illegal hd] at ht
      cases ht
      rfl
    case unique => exact Host.Outcome.next.inj (hu.symm.trans ht)
  case others => exact hw r.offset (List.mem_map_of_mem (f := fun r : Reg => (r.offset : Int)) hmem)

/-! ## Register writes (43_control.md R103 to R105) -/

theorem feed_keeps_inputs (b : Byte) (s : State) : (feed b s).nulterm = s.nulterm ∧ (feed b s).arg = s.arg := by
  obtain ⟨-, h⟩ | ⟨-, -, -, h⟩ | ⟨-, -, -, h⟩ | ⟨-, -, -, -, h⟩ | ⟨-, -, -, -, h⟩ | ⟨l, -, -, -, -, -, h⟩ |
    ⟨c, -, -, -, -, -, h⟩ | ⟨k, -, -, -, -, -, -, h⟩ | ⟨-, -, -, -, h⟩ := feed_outcomes b s <;> rw [h] <;> exact ⟨rfl, rfl⟩

/-- Every command but SRST leaves NULTERM and ARG, the two registers the host writes (10_state.md R38). -/
theorem exec_keeps_inputs {i : Instr} {s t : State} (hi : i ≠ .srst) (h : exec i s = .next t) :
    t.nulterm = s.nulterm ∧ t.arg = s.arg := by
  obtain ⟨-, rfl⟩ | ⟨-, -, rfl⟩ | ⟨k, -, -, rfl⟩ | ⟨-, -, rfl⟩ | ⟨k, -, -, rfl⟩ | ⟨-, -, rfl⟩ |
    ⟨k, -, -, rfl⟩ | ⟨-, -, rfl⟩ | ⟨-, -, rfl⟩ | ⟨c, -, -, rfl⟩ | ⟨n, hn, -, rfl⟩ | ⟨n, -, -, rfl⟩ |
    ⟨-, rfl⟩ | ⟨-, rfl⟩ | ⟨-, -, rfl⟩ | ⟨-, -, -, rfl⟩ | ⟨-, -, -, rfl⟩ | ⟨hsrst, -⟩ := exec_outcomes h
  any_goals exact ⟨rfl, rfl⟩
  · exact feed_keeps_inputs (byteOperand s) s
  · exact absurd hsrst hi

theorem stepCmd_keeps_arg {w : Word} {s t : State} (hw : decodeCmd w ≠ some .srst) (h : stepCmd w s = .next t) :
    t.arg = s.arg := by
  obtain ⟨i, hd, hi⟩ | ⟨-, rfl⟩ := stepCmd_outcomes h
  · exact (exec_keeps_inputs (fun hsrst => hw (hsrst ▸ hd)) hi).2
  · rfl

theorem perform_write_arg (v : Word) (s : State) : perform (.write 0x04 32 v) s = .next { s with arg := v } :=
  perform_hostWrite .arg v s

theorem toNat_decide_mod_two_eq_one (n : Nat) : (decide (n % 2 = 1)).toNat = n % 2 := by
  obtain h | h := Nat.mod_two_eq_zero_or_one n <;> simp [h]

/-- CTRL reads back bit 0 of what was written; its other bits read 0 (R103). -/
theorem performAll_write_read_ctrl (v : Word) (s : State) :
    performAll [.write 0x00 32 v, .read 0x00 32] s =
      .next ((s.setNulterm (decide (v.toNat % 2 = 1))).handOut (BitVec.ofNat 32 (v.toNat % 2))) := by
  change performAll [.write 0x00 32 v, hostRead .ctrl] s = _
  simp only [performAll, perform_write_ctrl, perform_hostRead, readReg_ctrl, State.setNulterm_nulterm,
    toNat_decide_mod_two_eq_one]

theorem perform_write_readOnly (v : Word) (s : State) :
    ∀ off ∈ [0x0C, 0x10, 0x14, 0x18, 0x1C], perform (.write off 32 v) s = .next s := by
  simp only [List.forall_mem_cons]
  exact ⟨perform_hostWrite .result v s, perform_hostWrite .status v s, perform_hostWrite .unitBytes v s,
    perform_hostWrite .unitUsed v s, perform_hostWrite .fcount v s, List.forall_mem_nil _⟩

/-- Settles O14: a lemma per kind of register, and `stepCmd_keeps_arg` for ARG across commands. -/
theorem registerWritesDoOnlyTheirOwn : Obligations.RegisterWritesDoOnlyTheirOwn := by
  refine fun s v => ⟨?ctrl, ?ctrlRead, ?arg, fun w t hw h => ?argKept, ?readOnly⟩
  case ctrl => exact perform_write_ctrl v s
  case ctrlRead => exact ⟨_, performAll_write_read_ctrl v s, rfl⟩
  case arg => exact perform_write_arg v s
  case argKept => exact stepCmd_keeps_arg hw h
  case readOnly => exact perform_write_readOnly v s

end Sys2Proof.Machine
end

section
/-! The obligations of 60_exceptions.md: the failure epilogue and the errors of each command. -/

namespace Sys2Proof.Machine

/-! ## What a failing command leaves (60_exceptions.md R109) -/

/-- The state after command `c` (`none`: the ILLEGAL outcome) has failed with code `k`: a failed ENC empties UNIT, a failed
frame is in ERROR, and the failure epilogue follows. -/
def failedState (c : Option Instr) (k : Code) (s : State) : State :=
  raise k { s with
    unit := if c = some .enc then .empty else s.unit
    fstate := if (c = some .ffeed ∨ c = some .fend) ∧ k ≠ .sequence then .error else s.fstate }

theorem CommandEnds.failure_epilogue {c : Option Instr} {s t : State} (h : CommandEnds c s t) (hn : c ≠ some .nop)
    (hk : t.code ≠ .ok) : t.result = sentinel ∧ t.cpv = false ∧ t.sticky = true := by
  cases h with
  | kept h => exact absurd h hn
  | reset | finish | emit => exact absurd rfl hk
  | raise => exact ⟨rfl, rfl, rfl⟩

/-- Under 10_state.md R32 the byte that completes a unit decodes (R97), so an FFEED that fails has ended or refused the
frame. -/
theorem feed_failure {b : Byte} {s : State} (hc : s.funit.Consistent) (hk : (feed b s).code ≠ .ok) :
    feed b s = failedState (some .ffeed) (feed b s).code s := by
  obtain ⟨-, h⟩ | ⟨-, -, -, h⟩ | ⟨-, -, -, h⟩ | ⟨-, -, -, -, h⟩ | ⟨-, -, -, -, h⟩ | ⟨l, -, -, -, -, -, h⟩ |
    ⟨c, -, -, -, -, -, h⟩ | ⟨k, -, -, h0, hlast, hd, -, -⟩ | ⟨-, -, -, -, h⟩ := feed_outcomes b s
  · rw [h]; rfl
  · rw [h]; rfl
  · exact absurd (congrArg State.code h) hk
  · rw [h]; rfl
  · exact absurd (congrArg State.code h) hk
  · exact absurd (congrArg State.code h) hk
  · exact absurd (congrArg State.code h) hk
  · obtain ⟨l, -, -, hvalue⟩ := decodeUnit_filled b hc h0 hlast
    exact absurd hvalue (hd _)
  · exact absurd (congrArg State.code h) hk

theorem exec_failure {i : Instr} {s t : State} (h : exec i s = .next t) (hn : i ≠ .nop) (hc : s.funit.Consistent)
    (hk : t.code ≠ .ok) : t = failedState (some i) t.code s := by
  obtain ⟨rfl, -⟩ | ⟨rfl, -, rfl⟩ | ⟨k, -, -, rfl⟩ | ⟨rfl, -, rfl⟩ | ⟨k, -, -, rfl⟩ | ⟨rfl, -, rfl⟩ |
    ⟨k, -, -, rfl⟩ | ⟨rfl, -, rfl⟩ | ⟨rfl, -, rfl⟩ | ⟨c, -, -, rfl⟩ | ⟨n, _, -, rfl⟩ | ⟨n, rfl, -, rfl⟩ |
    ⟨-, rfl⟩ | ⟨rfl, rfl⟩ | ⟨rfl, -, rfl⟩ | ⟨rfl, -, -, rfl⟩ | ⟨-, -, -, rfl⟩ | ⟨-, rfl⟩ := exec_outcomes h
  · exact absurd rfl hn
  -- The outcomes that end OK, then those that `raise`; FFEED's are left.
  any_goals exact absurd rfl hk
  any_goals rfl
  exact feed_failure hc hk

theorem stepCmd_failure {w : Word} {s t : State} (h : stepCmd w s = .next t) (hn : decodeCmd w ≠ some .nop)
    (hc : s.funit.Consistent) (hk : t.code ≠ .ok) : t = failedState (decodeCmd w) t.code s := by
  obtain ⟨i, hd, hi⟩ | ⟨hd, rfl⟩ := stepCmd_outcomes h
  · rw [hd] at hn ⊢
    exact exec_failure hi (fun hi => hn (congrArg some hi)) hc hk
  · rw [hd]
    rfl

/-! ## The one success that returns the sentinel (R109) -/

/-- Every RESULT of a success but a frame's count fits in the 21 bits of the largest decoded value (41_codec.md R81). -/
theorem ne_sentinel_of_lt {r : Word} (h : r.toNat < 2 ^ 21) : r ≠ sentinel := by
  rintro rfl
  exact absurd h (by decide)

theorem decodeUnit_value_lt {u : MultibyteUnit} {c : Word} (h : decodeUnit u = .value c) : c.toNat < 2 ^ 21 := by
  obtain ⟨-, hd⟩ | ⟨-, -, hd⟩ | ⟨l, -, -, -, hd⟩ | ⟨l, -, -, -, hd⟩ | ⟨l, -, -, hd⟩ := decodeUnit_cases u <;>
    rw [h] at hd <;> cases hd
  rw [assemblePayload_toNat]
  cases l <;> dsimp only <;> omega

theorem zext32_ne_sentinel (b : Byte) : zext32 b ≠ sentinel :=
  ne_sentinel_of_lt (by rw [zext32_toNat]; omega)

theorem zero_ne_sentinel : (0 : Word) ≠ sentinel := by decide

theorem lengthResult_ne_sentinel (l : Length) : BitVec.ofNat 32 l.toNat ≠ sentinel := by cases l <;> decide

theorem countResult_ne_sentinel : ∀ n : BitVec 3, BitVec.ofNat 32 n.toNat ≠ sentinel := by decide

/-- FFEED returns the sentinel on success only as the FCOUNT of the frame its terminator ended. -/
theorem feed_ok_sentinel {b : Byte} {s : State} (hk : (feed b s).code = .ok) (hr : (feed b s).result = sentinel) :
    (feed b s).fstate = .done ∧ s.fcount = sentinel := by
  obtain ⟨-, h⟩ | ⟨-, -, -, h⟩ | ⟨-, -, -, h⟩ | ⟨-, -, -, -, h⟩ | ⟨-, -, -, -, h⟩ | ⟨l, -, -, -, -, -, h⟩ |
    ⟨c, -, -, -, -, hd, h⟩ | ⟨k, -, -, -, -, -, hfail, h⟩ | ⟨-, -, -, -, h⟩ := feed_outcomes b s <;> rw [h] at hk hr ⊢
  · cases hk
  · cases hk
  · exact ⟨rfl, hr⟩
  · cases hk
  · exact absurd hr (zext32_ne_sentinel b)
  · exact absurd hr zero_ne_sentinel
  · exact absurd hr (ne_sentinel_of_lt (decodeUnit_value_lt hd))
  · obtain rfl | rfl := hfail <;> cases hk
  · exact absurd hr zero_ne_sentinel

theorem exec_ok_sentinel {i : Instr} {s t : State} (h : exec i s = .next t) (hn : i ≠ .nop) (hk : t.code = .ok)
    (hr : t.result = sentinel) : (i = .fend ∨ i = .ffeed) ∧ t.fstate = .done ∧ s.fcount = sentinel := by
  obtain ⟨rfl, -⟩ | ⟨-, -, rfl⟩ | ⟨k, -, -, rfl⟩ | ⟨-, -, rfl⟩ | ⟨k, -, -, rfl⟩ | ⟨-, -, rfl⟩ |
    ⟨k, -, -, rfl⟩ | ⟨-, -, rfl⟩ | ⟨-, -, rfl⟩ | ⟨c, -, hd, rfl⟩ | ⟨n, _, -, rfl⟩ | ⟨n, -, -, rfl⟩ |
    ⟨-, rfl⟩ | ⟨rfl, rfl⟩ | ⟨-, -, rfl⟩ | ⟨-, -, -, rfl⟩ | ⟨rfl, -, -, rfl⟩ | ⟨-, rfl⟩ := exec_outcomes h
  · exact absurd rfl hn
  -- The outcomes that `raise` do not end OK.
  any_goals contradiction
  · exact absurd hr (lengthResult_ne_sentinel k)
  · exact absurd hr (lengthResult_ne_sentinel k)
  · exact absurd hr (lengthResult_ne_sentinel k)
  · exact absurd hr (ne_sentinel_of_lt (decodeUnit_value_lt hd))
  · exact absurd hr (countResult_ne_sentinel n)
  · exact absurd hr zero_ne_sentinel
  · exact ⟨.inr rfl, feed_ok_sentinel hk hr⟩
  · exact ⟨.inl rfl, rfl, hr⟩
  · exact absurd hr zero_ne_sentinel

/-- Settles O41: every failure ends in `raise` (`CommandEnds`), which with `failedState`'s two writes is all it changes;
every success but a frame's end returns less than 2^21. -/
theorem failuresReturnSentinel : Obligations.FailuresReturnSentinel := by
  intro s t w h hn
  rw [perform_write_cmd] at h
  refine ⟨(stepCmd_ends h).failure_epilogue hn, fun hk hc => stepCmd_failure h hn hc hk, fun hk hr => ?success⟩
  case success =>
    obtain ⟨i, hd, hi⟩ | ⟨-, rfl⟩ := stepCmd_outcomes h
    · obtain ⟨hframe, hdone⟩ := exec_ok_sentinel hi (fun hi => hn (hi ▸ hd)) hk hr
      exact ⟨hframe.imp (hd.trans ∘ congrArg some) (hd.trans ∘ congrArg some), hdone⟩
    · cases hk

/-! ## CODE after each command (60_exceptions.md R110, R111) -/

section Codes

variable (s : State)

theorem finishLength_code (l : Option Length) :
    (finishLength l s).code = if l = none then .invalid else .ok := by
  cases l <;> rfl

theorem finishEncoded_code (c : Word) :
    (finishEncoded (encodeUnit c) s).code = if csl c = none then .invalid else .ok := by
  obtain ⟨hc, hu⟩ | ⟨l, hc, hu⟩ := encodeUnit_cases c <;> rw [hc, hu]
  · rfl
  · cases l <;> rfl

theorem loadUnit_code {n : BitVec 3} (hn : n.toNat ≤ 4) : (loadUnit n s).code = .ok := by
  obtain ⟨_, h⟩ | ⟨h5, -⟩ := loadUnit_cases n s
  · rw [h, finish_code]
  · omega

/-- DEC's tests in the order of R111; the empty unit is INVALID whatever its lead byte says. -/
theorem finishDecoded_code (u : MultibyteUnit) : (finishDecoded (decodeUnit u) s).code =
    match bsl u.bytes.b0 with
    | none => .invalid
    | some l => if u.used.val = 0 then .invalid else if u.used.val < l.toNat then .truncated
        else if l.toNat < u.used.val then .invalid else .ok := by
  cases hl : bsl u.bytes.b0 with
  | none => rw [decodeUnit_of_no_lead hl]; rfl
  | some l =>
    dsimp only
    split_ifs with h0 hshort hlong
    · rw [decodeUnit_of_used_zero h0]; rfl
    · rw [decodeUnit_of_short h0 hl hshort]; rfl
    · rw [decodeUnit_of_long hl hlong]; rfl
    · have hwhole : u.used = l.toFin := Fin.ext (by rw [Length.toFin_val]; omega)
      rw [decodeUnit_of_whole hl hwhole]; rfl

theorem closeFrame_code : (closeFrame s).code =
    if s.fstate ≠ .active then .sequence else if s.funit.used = 0 then .ok else .truncated := by
  by_cases ha : s.fstate = .active
  · rw [if_neg (not_not.mpr ha)]
    simpa only [apply_ite Prod.snd] using congrArg Prod.snd (closeFrame_transition ha)
  · rw [if_pos ha, closeFrame_of_inactive ha]
    rfl

theorem feed_code (b : Byte) (hc : s.funit.Consistent) : (feed b s).code =
    if s.fstate ≠ .active then .sequence
    else if s.nulterm = true ∧ b = 0 then if s.funit.used = 0 then .ok else .truncated
    else if s.funit.used = 0 ∧ bsl b = none then .invalid else .ok := by
  by_cases ha : s.fstate = .active
  · rw [if_neg (not_not.mpr ha)]
    simpa only [apply_ite Prod.snd] using congrArg Prod.snd (feed_transition (b := b) ha hc)
  · rw [if_pos ha, feed_of_inactive ha]
    rfl

end Codes

/-- Settles O42: one lemma on CODE per command. -/
theorem errorsPerCommand : Obligations.ErrorsPerCommand := by
  refine ⟨fun s t w hd h => ?illegal, fun s t i h => ⟨?neverFails, ?nop, ?clsb, ?classified, ?dec, ?ffeed, ?fend⟩⟩
  case illegal =>
    rw [perform_write_cmd, stepCmd_of_illegal hd] at h
    cases h
    rfl
  case neverFails =>
    rintro (rfl | rfl | ⟨n, hn, rfl⟩) <;> cases h
    · rfl
    · rfl
    · exact loadUnit_code s hn
  case nop =>
    rintro rfl
    cases h
    rfl
  case clsb =>
    rintro rfl
    cases h
    exact finishLength_code s _
  case classified =>
    simp only [← csl_eq_none_iff]
    rintro (rfl | rfl) <;> cases h
    · exact finishLength_code s _
    · exact finishEncoded_code _ s.arg
  case dec =>
    rintro rfl
    cases h
    exact finishDecoded_code s s.unit
  case ffeed =>
    rintro rfl hc
    cases h
    simp only [← byteOperand_eq_zero_iff]
    exact feed_code s _ hc
  case fend =>
    rintro rfl
    cases h
    exact closeFrame_code s

end Sys2Proof.Machine
end

section
/-! The obligations of 30_encoding.md: decode and encode, and the fourteen legal words. -/

namespace Sys2Proof.Machine

/-! ## Decode undoes encode, and encode undoes decode (30_encoding.md R53 to R57) -/

/-- Every command but ULOAD has an opcode of its own, other than ULOAD's. -/
theorem plainCommand_sound (op : BitVec 4) :
    ∀ i ∈ plainCommand op, i.WellFormed ∧ encode i = packFields 0 op := by
  revert op
  decide

theorem decodeCmd_encode {i : Instr} (h : i.WellFormed) : decodeCmd (encode i) = some i := by
  cases i with
  | uload n =>
    have hn : n.toNat ≤ 4 := of_decide_eq_true h
    simp [decodeCmd, encode, hn]
  | nop | clsb | clsc | enc | dec | fstart | ffeed | fend | srst => decide

/-- Along `decode_cmd`'s tests (R57): a word with RSV = 0 is made up of the two fields its command was read from. -/
theorem encode_of_decodeCmd {w : Word} {i : Instr} (h : decodeCmd w = some i) : i.WellFormed ∧ encode i = w := by
  unfold decodeCmd at h
  split_ifs at h with hr ho hc hz
  · cases h
    refine ⟨decide_eq_true hc, ?_⟩
    rw [encode, ← ho, packFields_of_reserved (not_not.mp hr)]
  · obtain ⟨hwf, hencode⟩ := plainCommand_sound _ i h
    refine ⟨hwf, ?_⟩
    rw [hencode, ← not_not.mp hz, packFields_of_reserved (not_not.mp hr)]

/-- Settles O2: `encode_of_decodeCmd` in one direction, `decodeCmd_encode` in the other. -/
theorem decodeAgreesWithEncode : Obligations.DecodeAgreesWithEncode := by
  refine fun w i => ⟨encode_of_decodeCmd, ?_⟩
  rintro ⟨hwf, rfl⟩
  exact decodeCmd_encode hwf

/-! ## The fourteen legal words (R57) -/

/-- Settles O1: `decode_cmd` evaluated on each word. -/
theorem legalWordsDecodeAsListed : Obligations.LegalWordsDecodeAsListed := by
  unfold Obligations.LegalWordsDecodeAsListed
  decide

theorem encode_uload_mem :
    ∀ n : BitVec 3, (Instr.uload n).WellFormed → encode (.uload n) ∈ [0x05#32, 0x15#32, 0x25#32, 0x35#32, 0x45#32] := by
  decide

/-- Settles O3: a legal word is the encoding of its command, which is one of nine words, or of ULOAD's five. -/
theorem exactlyFourteenLegalWords : Obligations.ExactlyFourteenLegalWords := by
  refine fun w => ⟨fun h => ?legal, fun h => ?listed⟩
  case legal =>
    obtain ⟨i, hi⟩ := Option.isSome_iff_exists.mp h
    obtain ⟨hwf, rfl⟩ := encode_of_decodeCmd hi
    cases i with
    | uload n =>
      have hsub : [0x05#32, 0x15#32, 0x25#32, 0x35#32, 0x45#32] ⊆ [0x00#32, 0x01#32, 0x02#32, 0x03#32, 0x04#32, 0x05#32,
        0x15#32, 0x25#32, 0x35#32, 0x45#32, 0x06#32, 0x07#32, 0x08#32, 0x0F#32] := by decide
      exact hsub (encode_uload_mem n hwf)
    | nop | clsb | clsc | enc | dec | fstart | ffeed | fend | srst => decide
  case listed =>
    revert w
    simp only [List.forall_mem_cons, List.not_mem_nil, false_imp_iff, implies_true, and_true]
    decide

end Sys2Proof.Machine
end

section
/-! The obligations of the invariant: it holds after a reset and every step keeps it (10_state.md R25 to R27, R31, R32). -/

namespace Sys2Proof.Machine

/-! ## A frame unit stays consistent (R32, decision D15) -/

theorem Length.one_lt_of_ne_one (l : Length) (h : l ≠ .one) : 1 < l.toNat := by
  cases l with
  | one => exact absurd rfl h
  | two | three | four => decide

theorem FrameUnit.empty_consistent : FrameUnit.empty.Consistent := by decide

/-- A longer unit's lead byte, put at the start of an empty frame unit. -/
theorem FrameUnit.Consistent.lead {f : FrameUnit} {b : Byte} {l : Length} (hc : f.Consistent) (h0 : f.used.val = 0)
    (hb : bsl b = some l) (hl : l ≠ .one) : FrameUnit.Consistent ⟨f.bytes.set 0 b, 1, l.toFin⟩ := by
  have hlen := l.one_lt_of_ne_one hl
  obtain ⟨-, -, hzero⟩ := hc
  refine ⟨?_, fun _ => ⟨?_, ?_⟩, fun i hi => ?_⟩
  · rw [Length.toFin_val]
    exact iff_of_false one_ne_zero (by omega)
  · rw [Length.toFin_val]
    exact hlen
  · exact congrArg (Option.map Length.toFin) hb
  · have hi1 : 1 ≤ i.val := hi
    rw [show f.bytes.set 0 b = f.bytes.set (0 : Fin 4).val b from rfl, UnitBytes.get_set,
      if_neg (fun h => by simp [h] at hi1), hzero i (by omega)]

theorem FrameUnit.get_zero_of_set {f : FrameUnit} (b : Byte) (h0 : f.used.val ≠ 0) :
    (f.bytes.set f.used.val b).get 0 = f.bytes.get 0 :=
  (UnitBytes.get_set f.bytes f.used 0 b).trans (if_neg fun h => h0 (by rw [← h]; rfl))

/-- A byte inside a unit that does not complete it. -/
theorem FrameUnit.Consistent.inner {f : FrameUnit} {b : Byte} {m : Fin 4} (hc : f.Consistent) (h0 : f.used.val ≠ 0)
    (hm : m.val = f.used.val + 1) (hlast : f.used.val + 1 ≠ f.len.val) :
    FrameUnit.Consistent ⟨f.bytes.set f.used.val b, m, f.len⟩ := by
  obtain ⟨hiff, hlead, hzero⟩ := hc
  have hlen : f.len.val ≠ 0 := mt hiff.mpr h0
  obtain ⟨hlt, hb⟩ := hlead hlen
  refine ⟨?_, fun _ => ⟨?_, ?_⟩, fun i hi => ?_⟩
  · exact iff_of_false (show m.val ≠ 0 by omega) hlen
  · change m.val < f.len.val
    omega
  · rw [← hb, ← FrameUnit.get_zero_of_set b h0]
  · have hi' : m.val ≤ i.val := hi
    rw [UnitBytes.get_set, if_neg (by rintro rfl; omega), hzero i (by omega)]

theorem FrameUnit.Consistent.next_used {f : FrameUnit} (hc : f.Consistent) (h0 : f.used.val ≠ 0)
    (hlast : f.used.val + 1 ≠ f.len.val) : (Fin.ofNat 4 (f.used.val + 1)).val = f.used.val + 1 := by
  obtain ⟨l, -, -, hlen, hlt⟩ := hc.pending h0
  rw [hlen, Length.toFin_val] at hlast
  have h4 : l.toNat ≤ 4 := by cases l <;> decide
  exact Nat.mod_eq_of_lt (by omega)

/-! ## The clauses of the invariant that no epilogue can break -/

/-- The clauses on UNIT and the frame state, which the epilogues of 60_exceptions.md R108 and R109 leave as they are. -/
structure State.BuffersInv (s : State) : Prop where
  unitCanonical : s.unit.Canonical
  funitConsistent : s.funit.Consistent
  closedEmpty : s.fstate = .idle ∨ s.fstate = .done → s.funit.used.val = 0
  idleCount : s.fstate = .idle → s.fcount = 0

theorem State.Inv.buffers {s : State} (h : s.Inv) : s.BuffersInv :=
  ⟨h.unitCanonical, h.funitConsistent, h.closedEmpty, h.idleCount⟩

section Epilogues

variable {u : State} (hu : u.BuffersInv)
include hu

theorem State.BuffersInv.finish (he : u.fstate = .error → u.sticky = true) (r : Word) : (finish r u).Inv where
  unitCanonical := hu.unitCanonical
  funitConsistent := hu.funitConsistent
  failureSticks h := absurd rfl h
  emittedInFrame h := nomatch h
  errorSticks := he
  closedEmpty := hu.closedEmpty
  idleCount := hu.idleCount

/-- R25: what a completed unit owes for its CPV. -/
theorem State.BuffersInv.emit {c : Word} (ha : u.fstate = .active) (h0 : u.funit.used.val = 0) (hc : c.toNat < 2 ^ 21) :
    (emit c u).Inv where
  unitCanonical := hu.unitCanonical
  funitConsistent := hu.funitConsistent
  failureSticks h := absurd rfl h
  emittedInFrame _ := ⟨rfl, ha, h0, Nat.le_of_lt_succ hc⟩
  errorSticks h := nomatch ha.symm.trans h
  closedEmpty := hu.closedEmpty
  idleCount := hu.idleCount

/-- R26: a failure sets STICKY, so it owes nothing for its code. -/
theorem State.BuffersInv.raise (k : Code) : (raise k u).Inv where
  unitCanonical := hu.unitCanonical
  funitConsistent := hu.funitConsistent
  failureSticks _ := rfl
  emittedInFrame h := nomatch h
  errorSticks _ := rfl
  closedEmpty := hu.closedEmpty
  idleCount := hu.idleCount

end Epilogues

section Writes

variable {s : State}

theorem State.BuffersInv.setUnit (hs : s.BuffersInv) {v : MultibyteUnit} (hv : v.Canonical) :
    (s.setUnit v).BuffersInv :=
  ⟨hv, hs.funitConsistent, hs.closedEmpty, hs.idleCount⟩

/-- An open or a failed frame may hold any consistent unit and any count. -/
theorem State.BuffersInv.setFrame (hs : s.BuffersInv) {f : FrameUnit} (hf : f.Consistent) {x : FrameState}
    (hx : x = .active ∨ x = .error) (v : Word) : (((s.setFunit f).setFcount v).setFstate x).BuffersInv where
  unitCanonical := hs.unitCanonical
  funitConsistent := hf
  closedEmpty h := by obtain rfl | rfl := hx <;> simp at h
  idleCount h := by obtain rfl | rfl := hx <;> cases h

theorem State.BuffersInv.setDone (hs : s.BuffersInv) (h0 : s.funit.used.val = 0) : (s.setFstate .done).BuffersInv where
  unitCanonical := hs.unitCanonical
  funitConsistent := hs.funitConsistent
  closedEmpty _ := h0
  idleCount h := nomatch h

end Writes

/-! ## Every command keeps the invariant -/

theorem State.Inv.reset (s : State) : (resetBlock s).Inv where
  unitCanonical := MultibyteUnit.empty_canonical
  funitConsistent := FrameUnit.empty_consistent
  failureSticks h := absurd rfl h
  emittedInFrame h := nomatch h
  errorSticks h := nomatch h
  closedEmpty _ := rfl
  idleCount _ := rfl

theorem State.Inv.feed {s : State} (hs : s.Inv) (b : Byte) : (feed b s).Inv := by
  have hbuf := hs.buffers
  have hc := hs.funitConsistent
  have hopen {f : FrameUnit} (hf : f.Consistent) (ha : s.fstate = .active) (v : Word) :
      ((s.setFunit f).setFcount v).BuffersInv := hbuf.setFrame (x := s.fstate) hf (.inl ha) v
  have herror : (s.setFstate .error).BuffersInv := hbuf.setFrame hc (.inr rfl) s.fcount
  obtain ⟨-, h⟩ | ⟨-, -, -, h⟩ | ⟨-, -, h0, h⟩ | ⟨-, -, -, -, h⟩ | ⟨ha, -, h0, -, h⟩ | ⟨l, ha, -, h0, hb, hl, h⟩ |
    ⟨c, ha, -, -, -, hd, h⟩ | ⟨k, ha, -, -, -, -, -, h⟩ | ⟨ha, -, h0, hlast, h⟩ := feed_outcomes b s <;> rw [h]
  · exact hbuf.raise _
  · exact herror.raise _
  · exact (hbuf.setDone h0).finish (fun h => nomatch h) _
  · exact herror.raise _
  · exact (hopen hc ha _).emit ha h0 (by rw [zext32_toNat]; omega)
  · exact (hopen (hc.lead h0 hb hl) ha s.fcount).finish hs.errorSticks _
  · exact (hopen FrameUnit.empty_consistent ha _).emit ha rfl (decodeUnit_value_lt hd)
  · exact (hopen FrameUnit.empty_consistent ha s.fcount).raise _
  · exact (hopen (hc.inner h0 (hc.next_used h0 hlast) hlast) ha s.fcount).finish hs.errorSticks _

theorem State.Inv.exec {i : Instr} {s t : State} (hs : s.Inv) (h : exec i s = .next t) : t.Inv := by
  have hbuf := hs.buffers
  obtain ⟨-, rfl⟩ | ⟨-, -, rfl⟩ | ⟨k, -, -, rfl⟩ | ⟨-, -, rfl⟩ | ⟨k, -, -, rfl⟩ | ⟨-, -, rfl⟩ |
    ⟨k, -, hk, rfl⟩ | ⟨-, -, rfl⟩ | ⟨-, -, rfl⟩ | ⟨c, -, -, rfl⟩ | ⟨n, hn, -, rfl⟩ | ⟨n, -, -, rfl⟩ |
    ⟨-, rfl⟩ | ⟨-, rfl⟩ | ⟨-, -, rfl⟩ | ⟨-, -, -, rfl⟩ | ⟨-, -, h0, rfl⟩ | ⟨-, rfl⟩ := exec_outcomes h
  · exact hs
  · exact hbuf.raise _
  · exact hbuf.finish hs.errorSticks _
  · exact hbuf.raise _
  · exact hbuf.finish hs.errorSticks _
  · exact (hbuf.setUnit MultibyteUnit.empty_canonical).raise _
  · rw [← encodeUnit_of_length hk]
    exact (hbuf.setUnit (encodeUnit_canonical s.arg)).finish hs.errorSticks _
  · exact hbuf.raise _
  · exact hbuf.raise _
  · exact hbuf.finish hs.errorSticks _
  · exact (hbuf.setUnit (loadedUnit_canonical s _)).finish hs.errorSticks _
  · exact hbuf.raise _
  · exact (hbuf.setFrame FrameUnit.empty_consistent (.inl rfl) 0).finish (fun h => nomatch h) _
  · exact hs.feed _
  · exact hbuf.raise _
  · exact (hbuf.setFrame hs.funitConsistent (.inr rfl) s.fcount).raise _
  · exact (hbuf.setDone h0).finish (fun h => nomatch h) _
  · exact State.Inv.reset s

/-- The invariant speaks of none of CTRL, ARG and the host's side. -/
theorem State.Inv.of_inputs {s : State} (hs : s.Inv) (b : Bool) (v : Word) (es : List HostEvent) (vs : List Word) :
    State.Inv { s with nulterm := b, arg := v, pending := es, returned := vs } :=
  ⟨hs.unitCanonical, hs.funitConsistent, hs.failureSticks, hs.emittedInFrame, hs.errorSticks, hs.closedEmpty, hs.idleCount⟩

theorem State.Inv.perform {e : HostEvent} {s t : State} (hs : s.Inv) (h : perform e s = .next t) : t.Inv := by
  obtain ⟨-, rfl⟩ | ⟨r, -, rfl⟩ | ⟨r, v, -, -, rfl⟩ | ⟨w, -, hc⟩ := perform_outcomes h
  · exact State.Inv.reset s
  · exact hs.of_inputs s.nulterm s.arg s.pending _
  · obtain ⟨-, h'⟩ | ⟨-, h'⟩ | h' := writeReg_outcomes r v s <;> rw [h']
    · exact hs.of_inputs _ s.arg s.pending s.returned
    · exact hs.of_inputs s.nulterm _ s.pending s.returned
    · exact hs
  · obtain ⟨i, -, hi⟩ | ⟨-, rfl⟩ := stepCmd_outcomes hc
    · exact hs.exec hi
    · exact hs.buffers.raise _

/-- Settles O49: a step performs the first pending event (`State.Inv.perform`), or keeps the state when there is none. -/
theorem stepKeepsInvariant : Obligations.StepKeepsInvariant := by
  intro s t hs h
  unfold step performNext at h
  cases hp : s.pending with
  | nil => rw [hp] at h; cases h; exact hs
  | cons e es =>
    rw [hp] at h
    exact (hs.of_inputs s.nulterm s.arg es s.returned).perform h

/-- Settles O48: a launch state is the reset block, whatever the host has pending and has read. -/
theorem resetMeetsInvariant : Obligations.ResetMeetsInvariant := by
  refine ⟨State.Inv.reset State.reset, fun s hs => ?_⟩
  rw [show s = resetBlock s from hs]
  exact State.Inv.reset s

end Sys2Proof.Machine
end

section
/-! The obligation of 30_encoding.md R65: the printed text of a word reads back. -/

namespace Sys2Proof.Machine

/-! ## Hexadecimal literals read back (log 12) -/

theorem digitValue_hexDigit : ∀ d : BitVec 4, digitValue (hexDigit d) = some d.toNat := by decide

theorem hexDigit_not_separator : ∀ d : BitVec 4, hexDigit d ≠ ' ' ∧ hexDigit d ≠ ',' := by decide

theorem digitsValue_map_hexDigit (ds : List (BitVec 4)) (sofar : Nat) :
    digitsValue 16 (ds.map hexDigit) sofar = some (ds.foldl (fun n d => 16 * n + d.toNat) sofar) := by
  induction ds generalizing sofar with
  | nil => rfl
  | cons d ds ih => simp [digitsValue, digitValue_hexDigit, ih, d.isLt]

/-- The lowest `k` hexadecimal digits of a word, the most significant first. -/
def nibbles (w : Word) (k : Nat) : List (BitVec 4) := (List.range k).reverse.map fun i => w.extractLsb' (4 * i) 4

theorem nibbles_succ (w : Word) (k : Nat) : nibbles w (k + 1) = w.extractLsb' (4 * k) 4 :: nibbles w k := by
  simp [nibbles, List.range_succ]

theorem hexText_eq (w : Word) : hexText w = '0' :: 'x' :: (nibbles w 8).map hexDigit := by
  rw [hexText, nibbles, List.map_map]; rfl

/-- The lowest digits put back under the digits above them. -/
theorem foldl_nibbles (w : Word) (k : Nat) :
    (nibbles w k).foldl (fun n d => 16 * n + d.toNat) (w.toNat / 16 ^ k) = w.toNat := by
  induction k with
  | zero => simp [nibbles]
  | succ k ih =>
    have hdigit : 16 * (w.toNat / 16 ^ (k + 1)) + (w.extractLsb' (4 * k) 4).toNat = w.toNat / 16 ^ k := by
      rw [extractLsb'_toNat_eq_div_mod, Nat.pow_mul, Nat.pow_succ, ← Nat.div_div_eq_div_mul]
      exact Nat.div_add_mod _ _
    rw [nibbles_succ, List.foldl_cons, hdigit, ih]

theorem readValue_hexText (w : Word) : readValue (hexText w) = some w := by
  have htop : w.toNat / 16 ^ 8 = 0 := Nat.div_eq_of_lt w.isLt
  have hdigits : digitsValue 16 ((nibbles w 8).map hexDigit) 0 = some w.toNat := by
    rw [digitsValue_map_hexDigit, ← htop, foldl_nibbles]
  have hne : (nibbles w 8).map hexDigit ≠ [] := by simp [nibbles_succ]
  rw [hexText_eq, readValue, readLiteral, if_neg hne, hdigits]
  simp [w.isLt]

/-! ## A line of two tokens reads back -/

/-- Characters that separate nothing join the token being read. -/
theorem tokenize_append {cs : List Char} (h : ∀ c ∈ cs, c ≠ ' ' ∧ c ≠ ',') (rest tok : List Char) :
    tokenize (cs ++ rest) tok = tokenize rest (tok ++ cs) := by
  induction cs generalizing tok with
  | nil => simp
  | cons c cs ih =>
    obtain ⟨hspace, hcomma⟩ := h c (by simp)
    simp [tokenize, hspace, hcomma, ih fun d hd => h d (List.mem_cons_of_mem _ hd)]

theorem hexText_not_separator (w : Word) : ∀ c ∈ hexText w, c ≠ ' ' ∧ c ≠ ',' := by
  rw [hexText_eq]
  simp only [List.forall_mem_cons, List.forall_mem_map]
  exact ⟨by decide, by decide, fun d _ => hexDigit_not_separator d⟩

/-- A line that is one token. -/
theorem tokenize_token {cs : List Char} (h : ∀ c ∈ cs, c ≠ ' ' ∧ c ≠ ',') (hne : cs ≠ []) : tokenize cs [] = [cs] := by
  have hcs := tokenize_append h [] []
  rwa [List.append_nil, List.nil_append, tokenize, if_neg hne] at hcs

theorem tokenize_word_chars (w : Word) : tokenize (Line.word w).chars [] = [".word".toList, hexText w] := by
  have hchars : (Line.word w).chars = ".word".toList ++ ' ' :: hexText w := rfl
  have hop : ∀ c ∈ ".word".toList, c ≠ ' ' ∧ c ≠ ',' := by simp
  have hne : hexText w ≠ [] := by simp [hexText]
  rw [hchars, tokenize_append hop, List.nil_append, tokenize, if_pos (.inl rfl), if_neg (by decide),
    tokenize_token (hexText_not_separator w) hne]

theorem readTokens_word (a : List Char) :
    readTokens [".word".toList, a] = (readValue a).map fun w => [.word w] := rfl

theorem readLine_word (w : Word) : readLine (Line.word w).text = some [.word w] := by
  have hcomment : hexText w ≠ "--".toList := by simp [hexText]
  rw [readLine, Line.text, String.toList_ofList (l := (Line.word w).chars), tokenize_word_chars,
    List.takeWhile_cons_of_pos (by decide), List.takeWhile_cons_of_pos (by simpa using hcomment), List.takeWhile_nil]
  rw [readTokens_word, readValue_hexText, Option.map_some]

theorem readLine_uload : ∀ n : BitVec 3, (Instr.uload n).WellFormed →
    readLine (Line.command (.uload n)).text = some [.command (.uload n)] := by decide

theorem readLine_command {i : Instr} (h : i.WellFormed) : readLine (Line.command i).text = some [.command i] := by
  cases i with
  | uload n => exact readLine_uload n h
  | nop | clsb | clsc | enc | dec | fstart | ffeed | fend | srst => decide

/-! ## The line a word prints as -/

theorem disassemble_of_decode {w : Word} {i : Instr} (h : decodeCmd w = some i) : disassemble w = .command i := by
  rw [disassemble, h]

theorem disassemble_of_illegal {w : Word} (h : decodeCmd w = none) : disassemble w = .word w := by
  rw [disassemble, h]

theorem text_command {i : Instr} (h : ∀ n, i ≠ .uload n) : (Line.command i).text = i.mnemonic := by
  cases i with
  | uload n => exact absurd rfl (h n)
  | nop | clsb | clsc | enc | dec | fstart | ffeed | fend | srst => exact String.ofList_toList

theorem text_uload : ∀ n : BitVec 3, (Instr.uload n).WellFormed → (Line.command (.uload n)).text =
    String.ofList ("ULOAD ".toList ++ [['0', '1', '2', '3', '4'].getD n.toNat '?']) := by decide

theorem readLine_disassemble (w : Word) :
    ∃ l, readLine (disassemble w).text = some [l] ∧ l.assemble = .write 0x08 32 w := by
  cases hd : decodeCmd w with
  | some i =>
    obtain ⟨hwf, rfl⟩ := encode_of_decodeCmd hd
    rw [disassemble_of_decode hd]
    exact ⟨.command i, readLine_command hwf, rfl⟩
  | none =>
    rw [disassemble_of_illegal hd]
    exact ⟨.word w, readLine_word w, rfl⟩

/-- Settles O5: a legal word prints as its command, any other as `.word`, and each reads back as the line it is. -/
theorem disassemblyAssemblesBack : Obligations.DisassemblyAssemblesBack := by
  refine fun w => ⟨readLine_disassemble w, fun i hd hi => ?plain, fun n hd => ?uload, fun hd => ?illegal⟩
  case plain => rw [disassemble_of_decode hd, text_command hi]
  case uload => rw [disassemble_of_decode hd, text_uload n (encode_of_decodeCmd hd).1]
  case illegal =>
    rw [disassemble_of_illegal hd]
    rfl

end Sys2Proof.Machine
end

section
/-! States that a command does not tell apart: what it neither reads nor writes does not change what it answers. -/

namespace Sys2Proof.Machine

/-! ## Relations that the commands carry over -/

/-- `R`-related states hold alike what the frame's end reads, and the shared operations carry `R` over to `Q`. -/
structure EndsAlike (R Q : State → State → Prop) : Prop where
  fstate {s s' : State} : R s s' → s.fstate = s'.fstate
  used {s s' : State} : R s s' → s.funit.used = s'.funit.used
  fcount {s s' : State} : R s s' → s.fcount = s'.fcount
  setFstate {s s' : State} (x : FrameState) : R s s' → R (s.setFstate x) (s'.setFstate x)
  setFunit {s s' : State} (f : FrameUnit) : R s s' → R (s.setFunit f) (s'.setFunit f)
  setFcount {s s' : State} (v : Word) : R s s' → R (s.setFcount v) (s'.setFcount v)
  finish {s s' : State} (r : Word) : R s s' → Q (finish r s) (finish r s')
  raise {s s' : State} (k : Code) : R s s' → Q (raise k s) (raise k s')

/-- With it, alike in what FFEED reads. -/
structure FeedsAlike (R Q : State → State → Prop) : Prop extends EndsAlike R Q where
  nulterm {s s' : State} : R s s' → s.nulterm = s'.nulterm
  funit {s s' : State} : R s s' → s.funit = s'.funit
  emit {s s' : State} (c : Word) : R s s' → Q (emit c s) (emit c s')

/-- With it, alike in what every command but FFEED reads. -/
structure RunsAlike (R Q : State → State → Prop) : Prop extends EndsAlike R Q where
  arg {s s' : State} : R s s' → s.arg = s'.arg
  unit {s s' : State} : R s s' → s.unit = s'.unit
  setUnit {s s' : State} (u : MultibyteUnit) : R s s' → R (s.setUnit u) (s'.setUnit u)
  nop {s s' : State} : R s s' → Q s s'
  srst {s s' : State} : R s s' → Q (resetBlock s) (resetBlock s')

section Carry

variable {R Q : State → State → Prop} {s s' : State}

theorem EndsAlike.frameEnd (h : EndsAlike R Q) (hr : R s s') : Q (frameEnd s) (frameEnd s') := by
  unfold Machine.frameEnd
  rw [h.used hr, h.fcount hr]
  split
  · exact h.raise _ (h.setFstate _ hr)
  · exact h.finish _ (h.setFstate _ hr)

theorem EndsAlike.closeFrame (h : EndsAlike R Q) (hr : R s s') : Q (closeFrame s) (closeFrame s') := by
  unfold Machine.closeFrame
  rw [h.fstate hr]
  split
  · exact h.raise _ hr
  · exact h.frameEnd hr

theorem EndsAlike.fstart (h : EndsAlike R Q) (hr : R s s') :
    Q (Machine.finish 0 (((s.setFunit .empty).setFcount 0).setFstate .active))
      (Machine.finish 0 (((s'.setFunit .empty).setFcount 0).setFstate .active)) :=
  h.finish 0 (h.setFstate _ (h.setFcount _ (h.setFunit _ hr)))

theorem FeedsAlike.emitDecoded (h : FeedsAlike R Q) (hr : R s s') (u : MultibyteUnit) :
    Q (emitDecoded u s) (emitDecoded u s') := by
  unfold Machine.emitDecoded
  rw [h.fcount hr]
  split
  · exact h.emit _ (h.setFcount _ hr)
  · exact h.raise _ hr
  · exact h.raise _ hr

theorem FeedsAlike.feedLead (h : FeedsAlike R Q) (hr : R s s') (b : Byte) : Q (feedLead b s) (feedLead b s') := by
  unfold Machine.feedLead
  rw [h.funit hr]
  split
  · exact h.raise _ (h.setFstate _ hr)
  · exact h.emitDecoded hr _
  · exact h.finish _ (h.setFunit _ hr)

theorem FeedsAlike.feedContinuation (h : FeedsAlike R Q) (hr : R s s') (b : Byte) :
    Q (feedContinuation b s) (feedContinuation b s') := by
  unfold Machine.feedContinuation filledBytes
  rw [h.funit hr]
  split
  · exact h.emitDecoded (h.setFunit _ hr) _
  · exact h.finish _ (h.setFunit _ hr)

theorem FeedsAlike.feed (h : FeedsAlike R Q) (hr : R s s') (b : Byte) : Q (feed b s) (feed b s') := by
  unfold Machine.feed
  rw [h.fstate hr, h.nulterm hr, h.used hr]
  split_ifs
  · exact h.raise _ hr
  · exact h.frameEnd hr
  · exact h.feedLead hr b
  · exact h.feedContinuation hr b

section Codec

variable (h : RunsAlike R Q) (hr : R s s')
include h hr

theorem RunsAlike.finishLength (l : Option Length) : Q (finishLength l s) (finishLength l s') := by
  cases l with
  | none => exact h.raise _ hr
  | some l => exact h.finish _ hr

theorem RunsAlike.finishEncoded (u : MultibyteUnit) : Q (finishEncoded u s) (finishEncoded u s') := by
  unfold Machine.finishEncoded
  split
  · exact h.raise _ hr
  · exact h.finish _ hr

theorem RunsAlike.finishDecoded (d : Decoded) : Q (finishDecoded d s) (finishDecoded d s') := by
  cases d with
  | invalid | truncated => exact h.raise _ hr
  | value c => exact h.finish c hr

theorem RunsAlike.loadUnit (n : BitVec 3) : Q (loadUnit n s) (loadUnit n s') := by
  unfold Machine.loadUnit loadedUnit argByte
  rw [h.arg hr]
  split
  · exact h.finish _ (h.setUnit _ hr)
  · exact h.raise _ hr

theorem RunsAlike.exec {i : Instr} (hi : i ≠ .ffeed) {t t' : State} (ht : exec i s = .next t)
    (ht' : exec i s' = .next t') : Q t t' := by
  cases i <;> cases ht <;> cases ht'
  case nop => exact h.nop hr
  case clsb =>
    unfold byteOperand
    exact h.arg hr ▸ h.finishLength hr _
  case clsc =>
    unfold codepointOperand
    exact h.arg hr ▸ h.finishLength hr _
  case enc =>
    unfold codepointOperand
    exact h.arg hr ▸ h.finishEncoded (h.setUnit _ hr) _
  case dec =>
    unfold unitOperand
    exact h.unit hr ▸ h.finishDecoded hr _
  case uload n => exact h.loadUnit hr n
  case fstart => exact h.fstart hr
  case ffeed => exact absurd rfl hi
  case fend => exact h.closeFrame hr
  case srst => exact h.srst hr

end Codec

end Carry

/-! ## The host's side of the interface (logs 1, 3 and 6) -/

/-- The state with other events pending and other values read. -/
def withHost (es : List HostEvent) (vs : List Word) (s : State) : State := { s with pending := es, returned := vs }

section Host

variable (es : List HostEvent) (vs : List Word)

theorem feedsAlike_withHost : FeedsAlike (fun s s' => s' = withHost es vs s) (fun s s' => s' = withHost es vs s) := by
  constructor
  constructor
  all_goals
    intros
    subst_vars
    rfl

theorem runsAlike_withHost : RunsAlike (fun s s' => s' = withHost es vs s) (fun s s' => s' = withHost es vs s) := by
  constructor
  · exact (feedsAlike_withHost es vs).toEndsAlike
  all_goals
    intros
    subst_vars
    rfl

theorem exec_withHost {i : Instr} {s t : State} (h : exec i s = .next t) :
    exec i (withHost es vs s) = .next (withHost es vs t) := by
  obtain ⟨t', ht'⟩ := exec_total i (withHost es vs s)
  rw [ht']
  congr 1
  by_cases hi : i = .ffeed
  · subst hi
    cases h
    cases ht'
    exact (feedsAlike_withHost es vs).feed rfl _
  · exact (runsAlike_withHost es vs).exec rfl hi h ht'

end Host

/-- A command finds the host's side as it is, so it leaves it as it is. -/
theorem exec_keeps_host {i : Instr} {s t : State} (h : exec i s = .next t) :
    t.pending = s.pending ∧ t.returned = s.returned := by
  have ht : t = withHost s.pending s.returned t := Host.Outcome.next.inj (h.symm.trans (exec_withHost _ _ h))
  rw [ht]
  exact ⟨rfl, rfl⟩

/-! ## UNIT, RESULT, CODE and CPV, for the frame commands (70_reset_and_hazards.md R132) -/

/-- The two states agree on NULTERM and the frame state. -/
def SameFrameInput (s s' : State) : Prop := s.nulterm = s'.nulterm ∧ SameFrame s' s

/-- The two states agree on what a frame command answers. -/
def SameFrameAnswer (t t' : State) : Prop :=
  t.result = t'.result ∧ t.code = t'.code ∧ t.cpv = t'.cpv ∧ SameFrame t' t

theorem feedsAlike_sameFrame : FeedsAlike SameFrameInput SameFrameAnswer where
  fstate := fun ⟨_, hfstate, _⟩ => hfstate
  used := fun ⟨_, _, hfunit, _⟩ => congrArg FrameUnit.used hfunit
  fcount := fun ⟨_, _, _, hfcount⟩ => hfcount
  setFstate _ := fun ⟨hnulterm, _, hfunit, hfcount⟩ => ⟨hnulterm, rfl, hfunit, hfcount⟩
  setFunit _ := fun ⟨hnulterm, hfstate, _, hfcount⟩ => ⟨hnulterm, hfstate, rfl, hfcount⟩
  setFcount _ := fun ⟨hnulterm, hfstate, hfunit, _⟩ => ⟨hnulterm, hfstate, hfunit, rfl⟩
  finish _ := fun ⟨_, hframe⟩ => ⟨rfl, rfl, rfl, hframe⟩
  raise _ := fun ⟨_, hframe⟩ => ⟨rfl, rfl, rfl, hframe⟩
  nulterm := fun ⟨hnulterm, _⟩ => hnulterm
  funit := fun ⟨_, _, hfunit, _⟩ => hfunit
  emit _ := fun ⟨_, hframe⟩ => ⟨rfl, rfl, rfl, hframe⟩

/-- Settles O45: the frame commands carry agreement on what they read over to what they answer. -/
theorem frameIgnoresHostUnit : Obligations.FrameIgnoresHostUnit := by
  intro s s' t t' i hi hnulterm harg hfstate hfunit hfcount h h'
  have hr : SameFrameInput s s' := ⟨hnulterm, hfstate, hfunit, hfcount⟩
  have hbyte : byteOperand s = byteOperand s' := by rw [byteOperand, byteOperand, harg]
  simp only [List.mem_cons, List.not_mem_nil, or_false] at hi
  obtain rfl | rfl | rfl := hi <;> cases h <;> cases h'
  · exact feedsAlike_sameFrame.fstart hr
  · exact hbyte ▸ feedsAlike_sameFrame.feed hr _
  · exact feedsAlike_sameFrame.closeFrame hr

/-! ## The bytes of FUNIT, for every command but FFEED (10_state.md R35) -/

/-- The second state is the first with other bytes in FUNIT. -/
def DiffersInHidden (s s' : State) : Prop := ∃ hidden, s' = { s with funit := { s.funit with bytes := hidden } }

theorem runsAlike_differsInHidden : RunsAlike DiffersInHidden DiffersInHidden where
  fstate := fun ⟨_, h⟩ => h ▸ rfl
  used := fun ⟨_, h⟩ => h ▸ rfl
  fcount := fun ⟨_, h⟩ => h ▸ rfl
  setFstate _ := fun ⟨hidden, h⟩ => ⟨hidden, h ▸ rfl⟩
  setFunit f := fun ⟨_, h⟩ => ⟨f.bytes, h ▸ rfl⟩
  setFcount _ := fun ⟨hidden, h⟩ => ⟨hidden, h ▸ rfl⟩
  finish _ := fun ⟨hidden, h⟩ => ⟨hidden, h ▸ rfl⟩
  raise _ := fun ⟨hidden, h⟩ => ⟨hidden, h ▸ rfl⟩
  arg := fun ⟨_, h⟩ => h ▸ rfl
  unit := fun ⟨_, h⟩ => h ▸ rfl
  setUnit _ := fun ⟨hidden, h⟩ => ⟨hidden, h ▸ rfl⟩
  nop := id
  srst := fun ⟨_, h⟩ => ⟨.zero, h ▸ rfl⟩

theorem DiffersInHidden.readReg {s s' : State} (h : DiffersInHidden s s') (r : Reg) : readReg s' r = readReg s r := by
  obtain ⟨hidden, rfl⟩ := h
  cases r <;> rfl

theorem DiffersInHidden.stepCmd {s s' t t' : State} {w : Word} (h : DiffersInHidden s s')
    (hw : decodeCmd w ≠ some .ffeed) (ht : stepCmd w s = .next t) (ht' : stepCmd w s' = .next t') :
    DiffersInHidden t t' := by
  cases hd : decodeCmd w with
  | some i =>
    rw [stepCmd_of_decode hd] at ht ht'
    exact runsAlike_differsInHidden.exec h (fun hi => hw (hi ▸ hd)) ht ht'
  | none =>
    rw [stepCmd_of_illegal hd] at ht ht'
    cases ht
    cases ht'
    exact runsAlike_differsInHidden.raise _ h

/-- Settles O46: no register shows the hidden bytes, and every command but FFEED carries a difference in them alone over to
its next states. -/
theorem hiddenBytesSeenOnlyByFfeed : Obligations.HiddenBytesSeenOnlyByFfeed := by
  intro s hidden w r
  have hs : DiffersInHidden s { s with funit := { s.funit with bytes := hidden } } := ⟨hidden, rfl⟩
  refine ⟨hs.readReg r, fun hw => ?_⟩
  obtain ⟨t, ht⟩ := stepCmd_total w s
  obtain ⟨t', ht'⟩ := stepCmd_total w { s with funit := { s.funit with bytes := hidden } }
  have hdiff := hs.stepCmd hw ht ht'
  refine ⟨t, t', ht, ht', (hdiff.readReg r).symm, ?_⟩
  obtain ⟨bytes, rfl⟩ := hdiff
  exact ⟨rfl, rfl⟩

end Sys2Proof.Machine
end

section
/-! The obligations of 20_memory.md: the window, the refused accesses, and the step of the machine. -/

namespace Sys2Proof.Machine

/-! ## The accesses R42 defines are those at the eight registers' offsets -/

theorem Reg.exists_offset {off : Int} (h : 0 ≤ off ∧ off < 32 ∧ off % 4 = 0) : ∃ r : Reg, off = r.offset := by
  obtain rfl | rfl | rfl | rfl | rfl | rfl | rfl | rfl : off = 0x00 ∨ off = 0x04 ∨ off = 0x08 ∨ off = 0x0C ∨ off = 0x10 ∨
    off = 0x14 ∨ off = 0x18 ∨ off = 0x1C := by omega
  exacts [⟨.ctrl, rfl⟩, ⟨.arg, rfl⟩, ⟨.cmd, rfl⟩, ⟨.result, rfl⟩, ⟨.status, rfl⟩, ⟨.unitBytes, rfl⟩, ⟨.unitUsed, rfl⟩,
    ⟨.fcount, rfl⟩]

theorem Reg.offset_inWindow (r : Reg) : 0 ≤ (r.offset : Int) ∧ (r.offset : Int) < 32 ∧ (r.offset : Int) % 4 = 0 := by
  cases r <;> decide

/-- The legal accesses are the ones that reach a register. -/
theorem inWindow_iff_accessed (off : Int) (width : Nat) :
    (width = 32 ∧ 0 ≤ off ∧ off < 32 ∧ off % 4 = 0) ↔ ∃ r, accessed off width = .ok r := by
  constructor
  · rintro ⟨rfl, h⟩
    obtain ⟨r, rfl⟩ := Reg.exists_offset h
    exact ⟨r, accessed_offset r⟩
  · rintro ⟨r, h⟩
    obtain ⟨rfl, rfl⟩ := accessed_ok h
    exact ⟨rfl, r.offset_inWindow⟩

theorem windowOffset_base_add (n : Nat) : windowOffset (Config.base + n) = n := by
  unfold windowOffset
  omega

/-- Settles O10: an address of the window is a register's when its offset is (`Reg.exists_offset`). -/
theorem windowStartsAtBase : Obligations.WindowStartsAtBase := by
  refine ⟨Nat.mul_mod_right 32 _, fun r v => ⟨?read, ?write⟩, fun addr v => ⟨⟨?reached, ?legal⟩, Iff.rfl⟩⟩
  case read => rw [readAt, windowOffset_base_add, hostRead]
  case write => rw [writeAt, windowOffset_base_add, hostWrite]
  case reached =>
    rintro ⟨-, h⟩
    obtain ⟨r, hr⟩ := Reg.exists_offset h
    unfold windowOffset at hr
    exact ⟨r, by omega⟩
  case legal =>
    rintro ⟨r, rfl⟩
    rw [writeAt, windowOffset_base_add]
    exact ⟨rfl, r.offset_inWindow⟩

/-! ## Which events are refused (R42) -/

theorem perform_of_legal {e : HostEvent} (h : e.Legal) (s : State) : ∃ t, perform e s = .next t := by
  cases e with
  | reset => exact ⟨_, rfl⟩
  | read off width =>
    obtain ⟨r, hr⟩ := (inWindow_iff_accessed off width).mp h
    simp [perform, hr]
  | write off width v =>
    obtain ⟨r, hr⟩ := (inWindow_iff_accessed off width).mp h
    by_cases hcmd : r = .cmd
    · simpa [perform, hr, performWrite, hcmd] using stepCmd_total v s
    · simp [perform, hr, performWrite, hcmd]

theorem perform_of_not_legal {e : HostEvent} (h : ¬ e.Legal) (s : State) : ∃ why, perform e s = .refused why := by
  cases e with
  | reset => exact absurd trivial h
  | read off width =>
    cases ha : accessed off width with
    | ok r => exact absurd ((inWindow_iff_accessed off width).mpr ⟨r, ha⟩) h
    | error why => exact ⟨why, by simp [perform, ha]⟩
  | write off width v =>
    cases ha : accessed off width with
    | ok r => exact absurd ((inWindow_iff_accessed off width).mpr ⟨r, ha⟩) h
    | error why => exact ⟨why, by simp [perform, ha]⟩

/-! ## One step (00_scope.md R6) -/

theorem step_of_pending {s : State} {e : HostEvent} {rest : List HostEvent} (h : s.pending = e :: rest) :
    step s = perform e { s with pending := rest } := by
  rw [step, performNext, h]

theorem step_of_idle {s : State} (h : s.pending = []) : step s = .next s := by
  rw [step, performNext, h]

/-- Settles O9: a step performs the first event, which has a next state when it is legal and is refused when it is not. -/
theorem onlyUndefinedAccessesRefused : Obligations.OnlyUndefinedAccessesRefused := by
  refine fun s => ⟨fun e rest hp => ?refused, fun e rest hp h => ?legal, step_of_idle⟩
  case legal => exact step_of_pending hp ▸ perform_of_legal h _
  case refused =>
    rw [step_of_pending hp]
    refine ⟨?_, fun h => perform_of_not_legal h _⟩
    rintro ⟨why, hwhy⟩ h
    obtain ⟨t, ht⟩ := perform_of_legal h { s with pending := rest }
    cases hwhy.symm.trans ht

/-- Settles O6: the step is the CMD write's, hence its command's. -/
theorem stepRunsDecodedCommand : Obligations.StepRunsDecodedCommand := by
  intro s w rest i hp hd
  rw [step_of_pending hp, perform_write_cmd, stepCmd_of_decode hd]

theorem decodeCmd_of_decodeTableWord {nbits w : Nat} {i : Instr} (h : decodeTableWord nbits w = some i) :
    decodeCmd (BitVec.ofNat 32 w) = some i := by
  rw [decodeTableWord, Option.ite_none_right_eq_some] at h
  exact h.2

/-- Settles O7: the placed CMD write is the first event pending, and taking it off gives the state it was placed in. -/
theorem placedWordRunsNext : Obligations.PlacedWordRunsNext := by
  intro s nbits w i hw h
  rw [State.withFetchWord, Nat.mod_eq_of_lt hw]
  exact stepRunsDecodedCommand (sendCommand (BitVec.ofNat 32 w) s) _ s.pending i rfl (decodeCmd_of_decodeTableWord h)

/-! ## Events in order (R47 to R49) -/

/-- The state with other events pending. -/
def withPending (es : List HostEvent) (s : State) : State := { s with pending := es }

section Pending

variable (es : List HostEvent)

theorem exec_withPending {i : Instr} {s t : State} (h : exec i s = .next t) :
    exec i (withPending es s) = .next (withPending es t) := by
  have hkept : withHost es s.returned t = withPending es t := by
    rw [← (exec_keeps_host h).2]
    rfl
  exact hkept ▸ exec_withHost es s.returned h

/-- An event neither reads nor writes what is pending after it. -/
theorem perform_withPending {e : HostEvent} {s t : State} (h : perform e s = .next t) :
    perform e (withPending es s) = .next (withPending es t) := by
  obtain ⟨rfl, rfl⟩ | ⟨r, rfl, rfl⟩ | ⟨r, v, rfl, hr, rfl⟩ | ⟨w, rfl, hc⟩ := perform_outcomes h
  · rfl
  · rw [perform_hostRead]
    cases r <;> rfl
  · rw [perform_hostWrite, performWrite, if_neg hr]
    cases r <;> rfl
  · rw [perform_write_cmd]
    obtain ⟨i, hd, hi⟩ | ⟨hd, rfl⟩ := stepCmd_outcomes hc
    · rw [stepCmd_of_decode hd, exec_withPending es hi]
    · rw [stepCmd_of_illegal hd]
      rfl

end Pending

theorem perform_keeps_pending {e : HostEvent} {s t : State} (h : perform e s = .next t) : t.pending = s.pending := by
  have ht : t = withPending s.pending t := Host.Outcome.next.inj (h.symm.trans (perform_withPending s.pending h))
  rw [ht]
  rfl

theorem run_succ (M : Host.Core) {s t : M.State} (h : M.step s = .next t) (n : Nat) : M.run (n + 1) s = M.run n t := by
  rw [Host.Core.run, h]

/-- Stepping with the events `es` first, whatever else is pending, performs them in order. -/
theorem run_of_performAll {es later : List HostEvent} {s t : State} (hs : s.pending = later)
    (h : performAll es s = .next t) :
    core.run es.length (withPending (es ++ later) s) = .next t ∧ t.pending = later := by
  induction es generalizing s with
  | nil =>
    cases h
    subst hs
    exact ⟨rfl, rfl⟩
  | cons e es ih =>
    rw [performAll] at h
    cases hp : perform e s with
    | fault r => cases r
    | refused r => rw [hp] at h; cases h
    | next u =>
      rw [hp] at h
      have hstep : core.step (withPending (e :: (es ++ later)) s) = .next (withPending (es ++ later) u) :=
        perform_withPending (s := s) (es ++ later) hp
      obtain ⟨hrun, hlater⟩ := ih ((perform_keeps_pending hp).trans hs) h
      exact ⟨(run_succ core hstep es.length).trans hrun, hlater⟩

/-- Settles O15: `run_of_performAll` for all that is pending. -/
theorem stepsApplyEventsInOrder : Obligations.StepsApplyEventsInOrder :=
  fun s _ later h => run_of_performAll (s := withPending later s) rfl h

end Sys2Proof.Machine
end

section
/-! The obligations of 70_reset_and_hazards.md about reset, and the pseudo-commands of 30_encoding.md R64. -/

namespace Sys2Proof.Machine

/-- Settles O17: both are `resetBlock`. -/
theorem softResetIsHardwareReset : Obligations.SoftResetIsHardwareReset :=
  fun s => ⟨resetBlock s, rfl, rfl, rfl, fun r => (readReg_resetBlock s r).trans (readReg_reset r)⟩

/-- Settles O18: in a launch state UNIT is empty and no frame is open. -/
theorem firstCommandsAfterReset : Obligations.FirstCommandsAfterReset := by
  intro s hs
  have hunit : s.unit = .empty := congrArg State.unit hs
  have hfstate : s.fstate = .idle := congrArg State.fstate hs
  have hinactive : s.fstate ≠ .active := by simp [hfstate]
  exact ⟨exec_dec_of_invalid (hunit ▸ decodeUnit_empty), exec_of_inactive hinactive (.inl rfl),
    exec_of_inactive hinactive (.inr rfl)⟩

theorem performAll_cons_next {e : HostEvent} {s t : State} (h : perform e s = .next t) (es : List HostEvent) :
    performAll (e :: es) s = performAll es t := by
  rw [performAll, h]

/-- A command with its operand is two writes: ARG, then the command, which finds the operand there. -/
theorem performAll_withOperand {v : Word} {i : Instr} {s t : State} (hi : i.WellFormed)
    (h : exec i (s.setArg v) = .next t) (es : List HostEvent) :
    performAll ((withOperand v i).map Line.assemble ++ es) s = performAll es t := by
  have hcmd : perform (hostWrite .cmd (encode i)) (s.setArg v) = .next t :=
    (stepCmd_of_decode (decodeCmd_encode hi) (s.setArg v)).trans h
  exact (performAll_cons_next (perform_write_arg v s) _).trans (performAll_cons_next hcmd es)

theorem runProgram_withOperand {i : Instr} (hi : i.WellFormed) (v : Word) (s : State) :
    runProgram (withOperand v i) s = exec i { s with arg := v } := by
  obtain ⟨t, ht⟩ := exec_total i (s.setArg v)
  have hrun := performAll_withOperand hi ht []
  rw [List.append_nil] at hrun
  exact hrun.trans ht.symm

/-- Settles O47: each pseudo-command with an operand is `withOperand`; BUILD is its own expansion. -/
theorem pseudoCommandsExpand : Obligations.PseudoCommandsExpand := by
  refine fun s b c v n hn => ⟨?clsb, ?clsc, ?enc, ?uload, ?ffeed, rfl, fun bs => rfl⟩
  case clsb => exact runProgram_withOperand rfl _ s
  case clsc => exact runProgram_withOperand rfl c s
  case enc => exact runProgram_withOperand rfl c s
  case uload =>
    have hwf : (Instr.uload n).WellFormed := decide_eq_true hn
    exact runProgram_withOperand hwf v s
  case ffeed => exact runProgram_withOperand rfl _ s

end Sys2Proof.Machine
end

section
/-! The obligations of the Byte-Class Table and the codec: 10_state.md R17, 40_classify.md R70, 41_codec.md R79, R81. -/

namespace Sys2Proof.Machine

/-! ## The rows of the table are disjoint (10_state.md R17, 40_classify.md R70) -/

theorem Length.ofIndex?_injective : ∀ i j : Fin 5, Length.ofIndex? i.val = Length.ofIndex? j.val → i = j := by decide

theorem bsl_of_rowMatches : ∀ (b : Byte) (i : Fin 5), rowMatches b i = true → bsl b = Length.ofIndex? i.val := by decide

theorem csl_eq_ofIndex?_iff (c : Word) {i : Fin 5} (hi : i ≠ 0) :
    csl c = Length.ofIndex? i.val ↔ (row i).rangeStart.toNat ≤ c.toNat ∧ c.toNat ≤ (row i).rangeEnd.toNat := by
  fin_cases i
  · exact absurd rfl hi
  · exact (csl_eq_some_iff c .one).trans (by simp [row])
  · exact csl_eq_some_iff c .two
  · exact csl_eq_some_iff c .three
  · exact csl_eq_some_iff c .four

theorem Length.ofIndex?_toFin (l : Length) : Length.ofIndex? l.toFin.val = some l := by cases l <;> rfl

/-- Settles O22: the row a byte matches is the one `bsl` answers with, and the row of 1 to 4 whose range holds a codepoint is
the one `csl` answers with, so there is one exactly when `csl` has an answer. -/
theorem tableRowsDisjoint : Obligations.TableRowsDisjoint := by
  refine ⟨fun b i j hi hj => ?disjoint, fun c => ?partition⟩
  case disjoint =>
    exact Length.ofIndex?_injective i j ((bsl_of_rowMatches b i hi).symm.trans (bsl_of_rowMatches b j hj))
  case partition =>
    rw [← csl_isSome_iff]
    constructor
    · rintro ⟨l, hl⟩
      have hne : l.toFin ≠ 0 := by cases l <;> decide
      have hrow := hl.trans l.ofIndex?_toFin.symm
      refine ⟨l.toFin, ⟨hne, (csl_eq_ofIndex?_iff c hne).mp hrow⟩, fun j ⟨hj, hrange⟩ => ?_⟩
      exact Length.ofIndex?_injective j _ (((csl_eq_ofIndex?_iff c hj).mpr hrange).symm.trans hrow)
    · rintro ⟨i, ⟨hi, hrange⟩, -⟩
      rw [(csl_eq_ofIndex?_iff c hi).mpr hrange]
      fin_cases i
      · exact absurd rfl hi
      all_goals exact ⟨_, rfl⟩

/-! ## What `decode` reads of a unit (41_codec.md R80, R81) -/

/-- The assembled value depends on the lead byte and the low six bits of the other bytes below the length. -/
theorem assemblePayload_congr {u v : UnitBytes} (l : Length) (h0 : u.get 0 = v.get 0)
    (h : ∀ k, 1 ≤ k → k < l.toNat → (u.get k).toNat % 64 = (v.get k).toNat % 64) :
    assemblePayload u l = assemblePayload v l := by
  have hb0 : u.b0 = v.b0 := h0
  have hb1 : 1 < l.toNat → u.b1.toNat % 64 = v.b1.toNat % 64 := h 1 le_rfl
  have hb2 : 2 < l.toNat → u.b2.toNat % 64 = v.b2.toNat % 64 := h 2 (by decide)
  have hb3 : 3 < l.toNat → u.b3.toNat % 64 = v.b3.toNat % 64 := h 3 (by decide)
  apply BitVec.eq_of_toNat_eq
  rw [assemblePayload_toNat, assemblePayload_toNat]
  cases l with
  | one => rw [hb0]
  | two => rw [hb0, hb1 (by decide)]
  | three => rw [hb0, hb1 (by decide), hb2 (by decide)]
  | four => rw [hb0, hb1 (by decide), hb2 (by decide), hb3 (by decide)]

theorem decodeUnit_congr {u v : MultibyteUnit} (hused : u.used = v.used) (h0 : u.bytes.get 0 = v.bytes.get 0)
    (h : ∀ l, assemblePayload u.bytes l = assemblePayload v.bytes l) : decodeUnit u = decodeUnit v := by
  simp only [decodeUnit, hused, h0, h]

/-- Which lead byte and second byte give a value above 0x10FFFF: a length-4 unit's from F4 90 on. -/
theorem assemblePayload_above_iff {u : UnitBytes} {l : Length} (hl : bsl u.b0 = some l) :
    0x10FFFF < (assemblePayload u l).toNat ↔
      0xF5 ≤ u.b0.toNat ∨ u.b0.toNat = 0xF4 ∧ 0x0F < u.b1.toNat % 64 := by
  rw [bsl_eq_some_iff] at hl
  rw [assemblePayload_toNat]
  cases l <;> dsimp only at hl ⊢ <;> omega

theorem decodeUnit_eq_value {u : MultibyteUnit} {c : Word} (h : decodeUnit u = .value c) :
    ∃ l, bsl u.bytes.b0 = some l ∧ u.used = l.toFin ∧ c = assemblePayload u.bytes l := by
  obtain ⟨-, hd⟩ | ⟨-, -, hd⟩ | ⟨l, -, -, -, hd⟩ | ⟨l, -, -, -, hd⟩ | ⟨l, hl, hu, hd⟩ := decodeUnit_cases u <;>
    rw [h] at hd <;> cases hd
  exact ⟨l, hl, hu, rfl⟩

/-- Settles O29: the payload bits of the lengths bound the value, and only they are read of the bytes after the lead. -/
theorem decodeChecksNoContent : Obligations.DecodeChecksNoContent := by
  refine ⟨fun u c h => ⟨Nat.le_of_lt_succ (decodeUnit_value_lt h), ?above⟩, by decide,
    fun u v hused h0 h1 h2 h3 => ?content⟩
  case above =>
    obtain ⟨l, hl, -, rfl⟩ := decodeUnit_eq_value h
    exact assemblePayload_above_iff hl
  case content =>
    refine decodeUnit_congr hused h0 fun l => assemblePayload_congr l h0 fun k hk hlt => ?_
    have hk4 : k < 4 := lt_of_lt_of_le hlt (by cases l <;> decide)
    obtain rfl | rfl | rfl : k = 1 ∨ k = 2 ∨ k = 3 := by omega
    · exact h1
    · exact h2
    · exact h3

/-! ## The shortest form (41_codec.md R79) -/

/-- The payload bits of a length hold no codepoint whose band is a longer one's. -/
theorem csl_assemblePayload_le {u : UnitBytes} {k l : Length} (hk : csl (assemblePayload u l) = some k) :
    k.toNat ≤ l.toNat := by
  rw [csl_eq_some_iff, assemblePayload_toNat] at hk
  cases l <;> cases k <;> simp only [Length.toNat] at hk ⊢ <;> omega

theorem encodeUnit_used_le {u : MultibyteUnit} {c : Word} (h : decodeUnit u = .value c) :
    (encodeUnit c).used.val ≤ u.used.val := by
  obtain ⟨l, -, hu, rfl⟩ := decodeUnit_eq_value h
  obtain ⟨-, he⟩ | ⟨k, hk, he⟩ := encodeUnit_cases (assemblePayload u.bytes l)
  · rw [he]
    exact Nat.zero_le _
  · rw [he, hu, Length.toFin_val, Length.toFin_val]
    exact csl_assemblePayload_le hk

/-- The leads an encoding can have: none of 0xC0, 0xC1 and 0xF5 to 0xFF. -/
theorem encodeUnit_lead_range (c : Word) :
    (encodeUnit c).bytes.b0.toNat ∉ [0xC0, 0xC1] ∧ (encodeUnit c).bytes.b0.toNat < 0xF5 := by
  cases hc : csl c with
  | none =>
    rw [encodeUnit_above hc]
    decide
  | some l =>
    have hlead : (encodeUnit c).bytes.b0.toNat = _ :=
      (congrArg BitVec.toNat (encodeUnit_lead hc)).trans (encodeLead_toNat hc)
    rw [hlead]
    rw [csl_eq_some_iff] at hc
    cases l <;> simp only [List.mem_cons, List.not_mem_nil, or_false] at hc ⊢ <;> omega

/-- Settles O30: a unit's payload bits bound its value, hence the band `encode` takes; the bands bound the lead byte. -/
theorem encodeIsShortestForm : Obligations.EncodeIsShortestForm := by
  refine ⟨fun u c => encodeUnit_used_le, fun c => ?_⟩
  obtain ⟨hne, hlt⟩ := encodeUnit_lead_range c
  exact ⟨fun h => hne (by rw [h]; decide), fun h => hne (by rw [h]; decide), hlt⟩

/-! ## ULOAD of what UNIT_BYTES reads (10_state.md R29, 20_memory.md R46) -/

theorem loadedUnit_unitBytes {s : State} (h : s.unit.Canonical) :
    loadedUnit (s.setArg (readReg s .unitBytes)) s.unit.used = s.unit := by
  have hbytes : (loadedUnit (s.setArg (readReg s .unitBytes)) s.unit.used).bytes = s.unit.bytes := by
    refine UnitBytes.ext_get fun i => ?_
    rw [loadedUnit, UnitBytes.get_ofFn]
    split_ifs with hi
    · exact s.unit.bytes.pack_byte i
    · exact (h i (not_lt.mp hi)).symm
  exact congrArg (MultibyteUnit.mk · s.unit.used) hbytes

/-- Settles O13: the bytes by `UnitBytes.pack_byte`; those past the count are 0 in a canonical unit. -/
theorem uloadOfUnitBytesReproducesUnit : Obligations.UloadOfUnitBytesReproducesUnit := by
  refine fun s => ⟨s.unit.bytes.pack_byte, fun h => ⟨_, rfl, ?_⟩⟩
  rw [loadUnit_of_count]
  exact loadedUnit_unitBytes h

end Sys2Proof.Machine
end

section
/-! The obligations of 10_state.md R38 and 70_reset_and_hazards.md R128: what commands and events leave unchanged. -/

namespace Sys2Proof.Machine

/-- FSTART and ULOAD cannot fail, so they leave STICKY (42_frame.md R92, 41_codec.md R86). -/
theorem exec_keeps_sticky {i : Instr} {s t : State} (h : exec i s = .next t)
    (hi : i = .fstart ∨ ∃ n, n.toNat ≤ 4 ∧ i = .uload n) : t.sticky = s.sticky := by
  obtain rfl | ⟨n, hn, rfl⟩ := hi <;> cases h
  · rfl
  · obtain ⟨_, h⟩ | ⟨h5, -⟩ := loadUnit_cases n s
    · rw [h]
      rfl
    · omega

theorem unitAfter_of_reader {s : State} {i : Instr} (hi : i ∉ [.enc, .srst]) (hn : ∀ n, i ≠ .uload n) :
    unitAfter s i = s.unit := by
  cases i with
  | enc | srst => exact absurd (by decide) hi
  | uload n => exact absurd rfl (hn n)
  | nop | clsb | clsc | dec | fstart | ffeed | fend => rfl

/-- Settles O35: one lemma per group of rows of the write matrix. -/
theorem commandsWriteOnlyTheirRows : Obligations.CommandsWriteOnlyTheirRows := by
  intro s t i h
  obtain ⟨hpending, hreturned⟩ := exec_keeps_host h
  refine ⟨hpending, hreturned, fun hi => exec_keeps_inputs hi h, fun hi => ?frame,
    fun hi hn => (exec_unit h).trans (unitAfter_of_reader hi hn), exec_keeps_sticky h, ?nop⟩
  case frame =>
    refine (exec_ends h).sameFrame fun j hj hij => hi ?_
    rw [Option.some.inj hij]
    exact hj
  case nop =>
    rintro rfl
    cases h
    rfl

/-! ## What lives until the next command (R128) -/

theorem perform_keeps_outcome {e : HostEvent} {s t : State} (hr : e ≠ .reset)
    (hw : ∀ width w, e = .write 0x08 width w → decodeCmd w = some .nop) (h : perform e s = .next t) :
    t.result = s.result ∧ t.code = s.code ∧ t.cpv = s.cpv := by
  obtain ⟨he, -⟩ | ⟨r, -, rfl⟩ | ⟨r, v, -, -, rfl⟩ | ⟨w, he, hc⟩ := perform_outcomes h
  · exact absurd he hr
  · exact ⟨rfl, rfl, rfl⟩
  · cases r <;> exact ⟨rfl, rfl, rfl⟩
  · rw [stepCmd_of_decode (hw _ w he)] at hc
    cases hc
    exact ⟨rfl, rfl, rfl⟩

theorem stepCmd_keeps_unit {w : Word} {s t : State} (henc : decodeCmd w ≠ some .enc) (hsrst : decodeCmd w ≠ some .srst)
    (huload : ∀ n, decodeCmd w ≠ some (.uload n)) (h : stepCmd w s = .next t) : t.unit = s.unit := by
  obtain ⟨i, hd, hi⟩ | ⟨-, rfl⟩ := stepCmd_outcomes h
  · refine (exec_unit hi).trans (unitAfter_of_reader ?_ fun n hn => huload n (hn ▸ hd))
    simp only [List.mem_cons, List.not_mem_nil, or_false]
    rintro (rfl | rfl)
    · exact henc hd
    · exact hsrst hd
  · rfl

theorem perform_keeps_unit {e : HostEvent} {s t : State} (hr : e ≠ .reset)
    (hw : ∀ width w, e = .write 0x08 width w →
      decodeCmd w ≠ some .enc ∧ decodeCmd w ≠ some .srst ∧ ∀ n, decodeCmd w ≠ some (.uload n))
    (h : perform e s = .next t) : t.unit = s.unit := by
  obtain ⟨he, -⟩ | ⟨r, -, rfl⟩ | ⟨r, v, -, -, rfl⟩ | ⟨w, he, hc⟩ := perform_outcomes h
  · exact absurd he hr
  · rfl
  · cases r <;> rfl
  · obtain ⟨henc, hsrst, huload⟩ := hw _ w he
    exact stepCmd_keeps_unit henc hsrst huload hc

/-- Settles O43: each event keeps them, hence a sequence does. -/
theorem resultsLiveUntilNextCommand : Obligations.ResultsLiveUntilNextCommand := by
  refine fun es s t h => ⟨fun hes => ?outcome, fun hes => ?unit⟩
  case outcome =>
    refine performAll_keeps (P := fun u => u.result = s.result ∧ u.code = s.code ∧ u.cpv = s.cpv)
      (fun e he u u' ⟨hresult, hcode, hcpv⟩ hp => ?_) ⟨rfl, rfl, rfl⟩ h
    obtain ⟨hresult', hcode', hcpv'⟩ := perform_keeps_outcome (hes e he).1 (hes e he).2 hp
    exact ⟨hresult'.trans hresult, hcode'.trans hcode, hcpv'.trans hcpv⟩
  case unit =>
    exact performAll_keeps (P := fun u => u.unit = s.unit)
      (fun e he u u' hu hp => (perform_keeps_unit (hes e he).1 (hes e he).2 hp).trans hu) rfl h

end Sys2Proof.Machine
end

section
/-! What the pseudo-command BUILD does, byte by byte, and what the host collects of it (30_encoding.md R64,
42_frame.md R91). -/

namespace Sys2Proof.Machine

/-! ## BUILD as a function of the state -/

/-- The state after the host has read STATUS and RESULT. -/
def readBack (s : State) : State := (s.handOut (readReg s .status)).handOut (readReg s .result)

/-- The state after one byte of BUILD: its FFEED and the two reads. -/
def feedByte (s : State) (b : Byte) : State := readBack (feed b (s.setArg (zext32 b)))

/-- The state after BUILD's FSTART. -/
def openFrame (s : State) : State := finish 0 (((s.setFunit .empty).setFcount 0).setFstate .active)

theorem performAll_readOutcome (es : List HostEvent) (s : State) :
    performAll (readOutcome.map Line.assemble ++ es) s = performAll es (readBack s) :=
  (performAll_cons_next (perform_hostRead .status s) _).trans
    (performAll_cons_next (perform_hostRead .result _) es)

theorem byteOperand_setArg_zext32 (b : Byte) (s : State) : byteOperand (s.setArg (zext32 b)) = b := by
  apply BitVec.eq_of_toNat_eq
  rw [byteOperand_toNat, State.setArg_arg, zext32_toNat]
  exact Nat.mod_eq_of_lt b.isLt

theorem exec_ffeed_zext32 (b : Byte) (s : State) :
    exec .ffeed (s.setArg (zext32 b)) = .next (feed b (s.setArg (zext32 b))) := by
  rw [exec_ffeed, byteOperand_setArg_zext32]

theorem performAll_feedBytes (bs : List Byte) (es : List HostEvent) (s : State) :
    performAll ((bs.flatMap fun b => withOperand (zext32 b) .ffeed ++ readOutcome).map Line.assemble ++ es) s =
      performAll es (bs.foldl feedByte s) := by
  induction bs generalizing s with
  | nil => rfl
  | cons b bs ih =>
    rw [List.flatMap_cons, List.map_append, List.map_append, List.append_assoc, List.append_assoc,
      performAll_withOperand rfl (exec_ffeed_zext32 b s), performAll_readOutcome, ih]
    rfl

theorem expand_build (bs : List Byte) : (Pseudo.build bs).expand = .command .fstart ::
    ((bs.flatMap fun b => withOperand (zext32 b) .ffeed ++ readOutcome) ++ .command .fend :: readOutcome) := rfl

theorem runProgram_build (bs : List Byte) (s : State) :
    runProgram (Pseudo.build bs).expand s = .next (readBack (closeFrame (bs.foldl feedByte (openFrame s)))) := by
  have hstart : perform (hostWrite .cmd (encode .fstart)) s = .next (openFrame s) := rfl
  have hend (t : State) : perform (hostWrite .cmd (encode .fend)) t = .next (closeFrame t) := rfl
  rw [runProgram, expand_build, List.map_cons, List.map_append, List.map_cons]
  exact (performAll_cons_next hstart _).trans <| (performAll_feedBytes bs _ _).trans <|
    (performAll_cons_next (hend _) _).trans (performAll_readOutcome [] _)

/-! ## What the host collects (42_frame.md R91) -/

/-- STATUS[3] is CPV (10_state.md R23). -/
theorem statusWord_getLsbD_cpv (s : State) : (statusWord s).getLsbD 3 = s.cpv := by
  have hcode : s.code.bits.toNat < 8 := s.code.bits.isLt
  have hbit : (statusWord s).toNat / 2 ^ 3 % 2 = s.cpv.toNat := by
    have hcpv := s.cpv.toNat_lt
    rw [statusWord_toNat]
    omega
  rw [BitVec.getLsbD, Nat.testBit_eq_decide_div_mod_eq, hbit]
  cases s.cpv <;> rfl

theorem emittedCodepoints_append : ∀ {xs : List Word}, Even xs.length → ∀ ys : List Word,
    emittedCodepoints (xs ++ ys) = emittedCodepoints xs ++ emittedCodepoints ys
  | [], _, _ => rfl
  | [_], h, _ => absurd h Nat.not_even_one
  | status :: result :: xs, h, ys => by
    have hxs : Even xs.length := by simpa [parity_simps] using h
    simp only [List.cons_append, emittedCodepoints, emittedCodepoints_append hxs ys]
    split <;> rfl

/-- From `s` to `t` the host has read whole pairs of STATUS and RESULT, and the codepoints among them are `cs`. -/
def Collected (s t : State) (cs : List Word) : Prop :=
  ∃ rs, t.returned = s.returned ++ rs ∧ Even rs.length ∧ emittedCodepoints rs = cs

theorem Collected.refl (s : State) : Collected s s [] := ⟨[], (List.append_nil _).symm, by decide, rfl⟩

theorem Collected.trans {s t u : State} {cs ds : List Word} : Collected s t cs → Collected t u ds →
    Collected s u (cs ++ ds)
  | ⟨rs, hrs, heven, hcs⟩, ⟨rs', hrs', heven', hds⟩ =>
    ⟨rs ++ rs', by rw [hrs', hrs, List.append_assoc], by simpa using heven.add heven',
      by rw [emittedCodepoints_append heven, hcs, hds]⟩

theorem Collected.emitted {s t : State} {cs rs : List Word} (hr : t.returned = s.returned ++ rs) :
    Collected s t cs → emittedCodepoints rs = cs
  | ⟨_, hrs, _, hcs⟩ => by rw [List.append_cancel_left (hr.symm.trans hrs), hcs]

theorem Collected.readBack {s t : State} (h : t.returned = s.returned) :
    Collected s (readBack t) (if t.cpv then [t.result] else []) := by
  refine ⟨[readReg t .status, readReg t .result], ?_, even_two, ?_⟩
  · rw [Machine.readBack, State.handOut_returned, State.handOut_returned, h, List.append_assoc]
    rfl
  · rw [emittedCodepoints, show readReg t .status = statusWord t from rfl, statusWord_getLsbD_cpv]
    rfl

theorem Collected.feedByte (s : State) (b : Byte) : ∃ cs, Collected s (feedByte s b) cs :=
  ⟨_, Collected.readBack (exec_keeps_host (exec_ffeed_zext32 b s)).2⟩

theorem Collected.feedBytes (bs : List Byte) (s : State) : ∃ cs, Collected s (bs.foldl Machine.feedByte s) cs := by
  induction bs generalizing s with
  | nil => exact ⟨_, .refl s⟩
  | cons b bs ih =>
    obtain ⟨cs, hcs⟩ := Collected.feedByte s b
    obtain ⟨ds, hds⟩ := ih (Machine.feedByte s b)
    exact ⟨_, hcs.trans hds⟩

/-- BUILD's FEND and its two reads emit nothing. -/
theorem Collected.close (s : State) : Collected s (Machine.readBack (closeFrame s)) [] := by
  have hcpv : (closeFrame s).cpv = false := by
    obtain ⟨-, h⟩ | ⟨-, h⟩ := closeFrame_cases s <;> rw [h]
    · rfl
    · exact frameEnd_cpv s
  have h := Collected.readBack (exec_keeps_host (exec_fend s)).2
  rwa [hcpv] at h

end Sys2Proof.Machine
end

section
/-! The obligations of 42_frame.md R99: BUILD of a byte stream. -/

namespace Sys2Proof.Machine

/-! ## An open frame takes whole units (R99 (a), (b)) -/

/-- From `s` to `t` an open frame has emitted the codepoints `cs`, counted and collected them, and is still open. -/
structure Progress (s t : State) (cs : List Word) : Prop where
  nulterm : t.nulterm = false
  active : t.fstate = .active
  count : t.fcount = s.fcount + BitVec.ofNat 32 cs.length
  collected : Collected s t cs

theorem Progress.refl {s : State} (hn : s.nulterm = false) (ha : s.fstate = .active) : Progress s s [] :=
  ⟨hn, ha, (BitVec.add_zero _).symm, .refl s⟩

theorem Progress.trans {s t u : State} {cs ds : List Word} (h : Progress s t cs) (h' : Progress t u ds) :
    Progress s u (cs ++ ds) where
  nulterm := h'.nulterm
  active := h'.active
  count := by rw [h'.count, h.count, List.length_append, BitVec.ofNat_add, BitVec.add_assoc]
  collected := h.collected.trans h'.collected

section OneByte

variable {s : State} {b : Byte} {f : FrameUnit}

/-- A byte that completes no unit. -/
theorem Progress.of_finish (hn : s.nulterm = false) (ha : s.fstate = .active)
    (h : feed b (s.setArg (zext32 b)) = finish 0 ((s.setArg (zext32 b)).setFunit f)) :
    Progress s (feedByte s b) [] ∧ (feedByte s b).funit = f := by
  have hcollected := Collected.readBack (exec_keeps_host (exec_ffeed_zext32 b s)).2
  unfold feedByte
  rw [h] at hcollected ⊢
  exact ⟨⟨hn, ha, (BitVec.add_zero _).symm, hcollected⟩, rfl⟩

/-- A byte that completes a unit of value `c`. -/
theorem Progress.of_emit {c : Word} (hn : s.nulterm = false) (ha : s.fstate = .active)
    (h : feed b (s.setArg (zext32 b)) = emit c (((s.setArg (zext32 b)).setFunit f).setFcount (s.fcount + 1))) :
    Progress s (feedByte s b) [c] ∧ (feedByte s b).funit = f := by
  have hcollected := Collected.readBack (exec_keeps_host (exec_ffeed_zext32 b s)).2
  unfold feedByte
  rw [h] at hcollected ⊢
  exact ⟨⟨hn, ha, rfl, hcollected⟩, rfl⟩

/-- ARG does not decide which path FFEED takes. -/
theorem feed_setArg_of_start (hn : s.nulterm = false) (ha : s.fstate = .active) (h0 : s.funit.used = 0) (v : Word) :
    feed b (s.setArg v) = feedLead b (s.setArg v) :=
  feed_of_start (s := s.setArg v) ha (by simp [hn]) h0

theorem feed_setArg_of_pending (hn : s.nulterm = false) (ha : s.fstate = .active) (h0 : s.funit.used ≠ 0) (v : Word) :
    feed b (s.setArg v) = feedContinuation b (s.setArg v) :=
  feed_of_pending (s := s.setArg v) ha (by simp [hn]) h0

end OneByte

/-- The frame unit holds the first bytes of `u`, at least the lead byte and not all. -/
structure Holds (f : FrameUnit) (u : MultibyteUnit) : Prop where
  consistent : f.Consistent
  pending : f.used ≠ 0
  len : f.len = u.used
  agree : ∀ i : Fin 4, i < f.used → f.bytes.get i.val = u.bytes.get i.val

/-- With the next byte of `u` the frame unit agrees with `u` one byte further. -/
theorem Holds.agree_set {f : FrameUnit} {u : MultibyteUnit} (h : Holds f u) (i : Fin 4) (hi : i ≤ f.used) :
    (f.bytes.set f.used.val (u.bytes.get f.used.val)).get i.val = u.bytes.get i.val := by
  rw [UnitBytes.get_set]
  split_ifs with heq
  · rw [heq]
  · exact h.agree i (lt_of_le_of_ne hi heq)

theorem Holds.lead {u : MultibyteUnit} {l : Length} (hl : bsl (u.bytes.get 0) = some l) (hone : l ≠ .one)
    (hu : u.used = l.toFin) : Holds ⟨UnitBytes.zero.set 0 (u.bytes.get 0), 1, l.toFin⟩ u where
  consistent := FrameUnit.empty_consistent.lead rfl hl hone
  pending := one_ne_zero
  len := hu.symm
  agree i hi := by
    have hi1 : i.val < 1 := hi
    obtain rfl : i = 0 := Fin.ext (by omega)
    rfl

theorem Holds.inner {f : FrameUnit} {u : MultibyteUnit} {m : Fin 4} (h : Holds f u) (hm : m.val = f.used.val + 1)
    (hlt : m.val < u.used.val) : Holds ⟨f.bytes.set f.used.val (u.bytes.get f.used.val), m, f.len⟩ u where
  consistent := h.consistent.inner (Fin.val_ne_zero_iff.mpr h.pending) hm (by rw [h.len]; omega)
  pending := Fin.val_ne_zero_iff.mp (show m.val ≠ 0 by omega)
  len := h.len
  agree i hi := h.agree_set i (Fin.le_def.mpr (by have : i.val < m.val := hi; omega))

/-- The bytes of a unit from `k` on, in wire order. -/
def MultibyteUnit.wireFrom (u : MultibyteUnit) (k n : Nat) : List Byte := (List.range' k n).map u.bytes.get

theorem MultibyteUnit.wireFrom_succ (u : MultibyteUnit) (k n : Nat) :
    u.wireFrom k (n + 1) = u.bytes.get k :: u.wireFrom (k + 1) n := rfl

theorem MultibyteUnit.wire_eq_wireFrom (u : MultibyteUnit) : u.wire = u.wireFrom 0 u.used.val := by
  rw [wire, List.range_eq_range', wireFrom]

/-- The last byte of a held unit emits the unit's value. -/
theorem Holds.feed_last {u : MultibyteUnit} {c : Word} {s : State} (h : Holds s.funit u) (hc : decodeUnit u = .value c)
    (hn : s.nulterm = false) (ha : s.fstate = .active) (hlast : s.funit.used.val + 1 = u.used.val) :
    Progress s (feedByte s (u.bytes.get s.funit.used.val)) [c] ∧
      (feedByte s (u.bytes.get s.funit.used.val)).funit = .empty := by
  obtain ⟨l, -, hu, rfl⟩ := decodeUnit_eq_value hc
  have hl : l.toNat = s.funit.used.val + 1 := by rw [hlast, hu, Length.toFin_val]
  refine Progress.of_emit hn ha ?_
  have hvalue : assemblePayload (s.funit.bytes.set s.funit.used.val (u.bytes.get s.funit.used.val)) l =
      assemblePayload u.bytes l :=
    assemblePayload_congr l (h.agree_set 0 (Fin.zero_le _)) fun k _ hk =>
      have hk4 : k < 4 := by have := s.funit.used.isLt; omega
      congrArg (BitVec.toNat · % 64) (h.agree_set ⟨k, hk4⟩ (Fin.le_def.mpr (by simp only; omega)))
  rw [feed_setArg_of_pending hn ha h.pending, ← hvalue]
  exact feedContinuation_of_last (s := s.setArg _) h.consistent h.pending (h.len.trans hu) hl.symm

theorem Holds.feed_inner {u : MultibyteUnit} {s : State} (h : Holds s.funit u) (hn : s.nulterm = false)
    (ha : s.fstate = .active) (hlt : s.funit.used.val + 1 < u.used.val) :
    Progress s (feedByte s (u.bytes.get s.funit.used.val)) [] ∧
      Holds (feedByte s (u.bytes.get s.funit.used.val)).funit u ∧
      (feedByte s (u.bytes.get s.funit.used.val)).funit.used.val = s.funit.used.val + 1 := by
  have hm : s.funit.used.val + 1 < 4 := by have := u.used.isLt; omega
  have hlen : s.funit.used.val + 1 < s.funit.len.val := by rwa [h.len]
  obtain ⟨hprogress, hfunit⟩ := Progress.of_finish hn ha ((feed_setArg_of_pending hn ha h.pending _).trans
    (feedContinuation_of_inner (s := s.setArg _) (m := ⟨_, hm⟩) rfl hlen))
  rw [hfunit]
  exact ⟨hprogress, h.inner rfl hlt, rfl⟩

/-- The rest of a unit whose first bytes are held completes it. -/
theorem feed_rest {u : MultibyteUnit} {c : Word} (hc : decodeUnit u = .value c) {n : Nat} {s : State}
    (hn : s.nulterm = false) (ha : s.fstate = .active) (hf : Holds s.funit u)
    (hlen : s.funit.used.val + (n + 1) = u.used.val) :
    Progress s ((u.wireFrom s.funit.used.val (n + 1)).foldl feedByte s) [c] ∧
      ((u.wireFrom s.funit.used.val (n + 1)).foldl feedByte s).funit = .empty := by
  induction n generalizing s with
  | zero => exact hf.feed_last hc hn ha hlen
  | succ n ih =>
    obtain ⟨hstep, hholds, hused⟩ := hf.feed_inner hn ha (by omega)
    obtain ⟨hrest, hempty⟩ := ih hstep.nulterm hstep.active hholds (by omega)
    rw [u.wireFrom_succ, List.foldl_cons, ← hused]
    exact ⟨hstep.trans hrest, hempty⟩

theorem MultibyteUnit.Whole.length {u : MultibyteUnit} (h : u.Whole) :
    ∃ l, bsl (u.bytes.get 0) = some l ∧ u.used = l.toFin := by
  obtain ⟨l, hl, hu⟩ := Option.map_eq_some_iff.mp h
  exact ⟨l, hl, hu.symm⟩

theorem assemblePayload_one {u : UnitBytes} (h : bsl u.b0 = some .one) : assemblePayload u .one = zext32 u.b0 := by
  rw [bsl_eq_some_iff] at h
  apply BitVec.eq_of_toNat_eq
  rw [assemblePayload_toNat, zext32_toNat]
  exact Nat.mod_eq_of_lt (Nat.lt_succ_of_le h)

/-- An open frame with no unit pending takes a whole unit and emits its value. -/
theorem feed_unit_wire {u : MultibyteUnit} (hu : u.Whole) {s : State} (hn : s.nulterm = false) (ha : s.fstate = .active)
    (hf : s.funit = .empty) : ∃ c, decodeUnit u = .value c ∧ Progress s (u.wire.foldl feedByte s) [c] ∧
      (u.wire.foldl feedByte s).funit = .empty := by
  obtain ⟨l, hl, hused⟩ := hu.length
  refine ⟨_, decodeUnit_of_whole hl hused, ?_⟩
  have hstart {b : Byte} := feed_setArg_of_start (b := b) hn ha (congrArg FrameUnit.used hf) (zext32 b)
  by_cases hone : l = .one
  · subst hone
    have hwire : u.wire = [u.bytes.get 0] := by rw [MultibyteUnit.wire, hused]; rfl
    rw [hwire, assemblePayload_one hl, ← hf]
    exact Progress.of_emit hn ha (hstart.trans (feedLead_of_one hl))
  · have hlt := l.one_lt_of_ne_one hone
    obtain ⟨hlead, hfunit⟩ := Progress.of_finish hn ha (hstart.trans (feedLead_of_multibyte hl hone))
    rw [State.setArg_funit, hf] at hfunit
    have hholds : Holds (feedByte s (u.bytes.get 0)).funit u := hfunit ▸ Holds.lead hl hone hused
    have hfirst : (feedByte s (u.bytes.get 0)).funit.used.val = 1 := congrArg (fun f => f.used.val) hfunit
    obtain ⟨n, hn'⟩ : ∃ n, u.used.val = n + 2 := ⟨l.toNat - 2, by rw [hused, Length.toFin_val]; omega⟩
    obtain ⟨hrest, hempty⟩ := feed_rest (decodeUnit_of_whole hl hused) hlead.nulterm hlead.active hholds (n := n) (by omega)
    rw [hfirst] at hrest hempty
    rw [u.wire_eq_wireFrom, hn', u.wireFrom_succ, List.foldl_cons, zero_add]
    exact ⟨hlead.trans hrest, hempty⟩

/-- The first half of R99: whole units are taken one after another. -/
theorem feed_wholeUnits {us : List MultibyteUnit} (hus : ∀ u ∈ us, u.Whole) {s : State} (hn : s.nulterm = false)
    (ha : s.fstate = .active) (hf : s.funit = .empty) : ∃ cs, us.map decodeUnit = cs.map Decoded.value ∧
      Progress s ((us.flatMap MultibyteUnit.wire).foldl feedByte s) cs ∧
      ((us.flatMap MultibyteUnit.wire).foldl feedByte s).funit = .empty := by
  induction us generalizing s with
  | nil => exact ⟨[], rfl, .refl hn ha, hf⟩
  | cons u us ih =>
    rw [List.forall_mem_cons] at hus
    obtain ⟨hu, hus⟩ := hus
    obtain ⟨c, hc, hunit, hempty⟩ := feed_unit_wire hu hn ha hf
    obtain ⟨cs, hcs, hrest, hempty'⟩ := ih hus hunit.nulterm hunit.active hempty
    rw [List.flatMap_cons, List.foldl_append]
    exact ⟨c :: cs, by rw [List.map_cons, List.map_cons, hc, hcs], hunit.trans hrest, hempty'⟩

/-! ## A frame that is still open has taken whole units and holds the rest (R99 (a)) -/

/-- The bytes a frame unit holds. -/
def FrameUnit.held (f : FrameUnit) : List Byte := (List.range f.used.val).map f.bytes.get

theorem FrameUnit.held_of_empty {f : FrameUnit} (h : f.used.val = 0) : f.held = [] := by rw [held, h]; rfl

/-- The first `k` bytes and the byte put after them. -/
theorem map_get_set (u : UnitBytes) (k : Fin 4) (b : Byte) :
    (List.range (k.val + 1)).map (u.set k.val b).get = (List.range k.val).map u.get ++ [b] := by
  rw [List.range_succ, List.map_append, List.map_singleton, UnitBytes.get_set, if_pos rfl]
  congr 1
  refine List.map_congr_left fun i hi => ?_
  have hik : i < k.val := List.mem_range.mp hi
  have h := UnitBytes.get_set u k ⟨i, by omega⟩ b
  rwa [if_neg (Fin.ne_of_lt hik)] at h

/-- The bytes are whole units and then the bytes `rest`. -/
def Splits (bs rest : List Byte) : Prop :=
  ∃ us : List MultibyteUnit, (∀ u ∈ us, u.Whole) ∧ bs = us.flatMap MultibyteUnit.wire ++ rest

theorem Splits.snoc {bs rest : List Byte} (b : Byte) : Splits bs rest → Splits (bs ++ [b]) (rest ++ [b])
  | ⟨us, hus, h⟩ => ⟨us, hus, by rw [h, List.append_assoc]⟩

theorem Splits.complete {bs : List Byte} {u : MultibyteUnit} (hu : u.Whole) : Splits bs u.wire → Splits bs []
  | ⟨us, hus, h⟩ => ⟨us ++ [u], List.forall_mem_append.mpr ⟨hus, List.forall_mem_singleton.mpr hu⟩, by simpa using h⟩

/-- After the bytes `bs` of a frame without NULTERM: it has failed, or it is open and `bs` is whole units and the bytes that
FUNIT holds. -/
structure Parsed (bs : List Byte) (s : State) : Prop where
  nulterm : s.nulterm = false
  notDone : s.fstate ≠ .done
  split : s.fstate = .active → s.funit.Consistent ∧ Splits bs s.funit.held

theorem Parsed.of_inactive {bs : List Byte} {s : State} (hn : s.nulterm = false) (hd : s.fstate ≠ .done)
    (ha : s.fstate ≠ .active) : Parsed bs s :=
  ⟨hn, hd, fun h => absurd h ha⟩

theorem Parsed.of_active {bs : List Byte} {s : State} (hn : s.nulterm = false) (ha : s.fstate = .active)
    (hc : s.funit.Consistent) (h : Splits bs s.funit.held) : Parsed bs s :=
  ⟨hn, by simp [ha], fun _ => ⟨hc, h⟩⟩

theorem whole_of_value {u : MultibyteUnit} {c : Word} (h : decodeUnit u = .value c) : u.Whole := by
  obtain ⟨l, hl, hu, -⟩ := decodeUnit_eq_value h
  exact Option.map_eq_some_iff.mpr ⟨l, hl, hu.symm⟩

theorem Parsed.feed {bs : List Byte} {s : State} (h : Parsed bs s) (b : Byte) : Parsed (bs ++ [b]) (feed b s) := by
  obtain ⟨hn, hd, hsplit⟩ := h
  obtain ⟨ha, h⟩ | ⟨-, ⟨hz, -⟩, -⟩ | ⟨-, ⟨hz, -⟩, -⟩ | ⟨-, -, -, -, h⟩ | ⟨ha, -, h0, hb, h⟩ | ⟨l, ha, -, h0, hb, hl, h⟩ |
    ⟨c, ha, -, h0, -, hc, h⟩ | ⟨k, ha, -, h0, hlast, hfail, -, -⟩ | ⟨ha, -, h0, hlast, h⟩ := feed_outcomes b s
  · rw [h]
    exact .of_inactive hn hd ha
  · simp [hn] at hz
  · simp [hn] at hz
  · rw [h]
    exact .of_inactive hn (by simp) (by simp)
  · obtain ⟨hcons, hs⟩ := hsplit ha
    have hwhole : MultibyteUnit.Whole ⟨⟨b, 0, 0, 0⟩, 1⟩ := congrArg (Option.map Length.toFin) hb
    rw [FrameUnit.held_of_empty h0] at hs
    rw [h]
    refine .of_active hn ha hcons ?_
    rw [emit_funit, State.setFcount_funit, FrameUnit.held_of_empty h0]
    exact (hs.snoc b).complete hwhole
  · obtain ⟨hcons, hs⟩ := hsplit ha
    rw [FrameUnit.held_of_empty h0] at hs
    rw [h]
    exact .of_active hn ha (hcons.lead h0 hb hl) (hs.snoc b)
  · obtain ⟨hcons, hs⟩ := hsplit ha
    have hwire : MultibyteUnit.wire ⟨filledBytes b s, s.funit.used.succ⟩ = s.funit.held ++ [b] :=
      map_get_set s.funit.bytes s.funit.used b
    rw [h]
    exact .of_active hn ha FrameUnit.empty_consistent ((hwire ▸ hs.snoc b).complete (whole_of_value hc))
  · obtain ⟨hcons, -⟩ := hsplit ha
    obtain ⟨l, -, -, hvalue⟩ := decodeUnit_filled b hcons h0 hlast
    exact absurd hvalue (hfail _)
  · obtain ⟨hcons, hs⟩ := hsplit ha
    have hnext := hcons.next_used h0 hlast
    rw [h]
    refine .of_active hn ha (hcons.inner h0 hnext hlast) ?_
    have hheld : FrameUnit.held ⟨filledBytes b s, Fin.ofNat 4 (s.funit.used.val + 1), s.funit.len⟩ =
        s.funit.held ++ [b] := by
      rw [FrameUnit.held, hnext]
      exact map_get_set s.funit.bytes s.funit.used b
    exact hheld ▸ hs.snoc b

theorem Parsed.feedByte {bs : List Byte} {s : State} (h : Parsed bs s) (b : Byte) : Parsed (bs ++ [b]) (feedByte s b) := by
  have hset : Parsed bs (s.setArg (zext32 b)) := ⟨h.nulterm, h.notDone, h.split⟩
  obtain ⟨hn, hd, hsplit⟩ := hset.feed b
  exact ⟨hn, hd, hsplit⟩

theorem Parsed.feedBytes {bs : List Byte} {s : State} (h : Parsed [] s) : Parsed bs (bs.foldl Machine.feedByte s) := by
  induction bs using List.reverseRecOn with
  | nil => exact h
  | append_singleton bs b ih =>
    rw [List.foldl_append]
    exact ih.feedByte b

/-- Only an open frame with no unit pending ends DONE, so its bytes were whole units. -/
theorem Parsed.of_done {bs : List Byte} {s : State} (h : Parsed bs s) (hd : (closeFrame s).fstate = .done) :
    Splits bs [] := by
  obtain ⟨-, hclose⟩ | ⟨ha, hclose⟩ := closeFrame_cases s
  · rw [hclose] at hd
    exact absurd hd h.notDone
  · obtain ⟨-, hend⟩ | ⟨h0, -⟩ := frameEnd_cases s
    · rw [hclose, hend] at hd
      cases hd
    · exact FrameUnit.held_of_empty h0 ▸ (h.split ha).2

/-! ## BUILD (R99) -/

theorem openFrame_parsed {s : State} (hn : s.nulterm = false) : Parsed [] (openFrame s) :=
  .of_active hn rfl FrameUnit.empty_consistent ⟨[], by simp, rfl⟩

/-- The BUILD of whole units ends DONE with their number and, among what the host has read, their values. -/
theorem build_wholeUnits {us : List MultibyteUnit} (hus : ∀ u ∈ us, u.Whole) {s t : State} (hn : s.nulterm = false)
    (ht : t = (us.flatMap MultibyteUnit.wire).foldl feedByte (openFrame s)) :
    ∃ cs, us.map decodeUnit = cs.map Decoded.value ∧ (readBack (closeFrame t)).fstate = .done ∧
      (readBack (closeFrame t)).fcount = BitVec.ofNat 32 us.length ∧ Collected s (readBack (closeFrame t)) cs := by
  obtain ⟨cs, hcs, hprogress, hempty⟩ := feed_wholeUnits hus (s := openFrame s) hn rfl rfl
  rw [← ht] at hprogress hempty
  have hlength : us.length = cs.length := by simpa using congrArg List.length hcs
  have hcollected : Collected s (readBack (closeFrame t)) (cs ++ []) := hprogress.collected.trans (Collected.close t)
  rw [List.append_nil] at hcollected
  refine ⟨cs, hcs, ?_, ?_, hcollected⟩
  · rw [closeFrame_of_empty hprogress.active (congrArg FrameUnit.used hempty)]
    rfl
  · calc (readBack (closeFrame t)).fcount = t.fcount := closeFrame_fcount t
      _ = 0 + BitVec.ofNat 32 cs.length := hprogress.count
      _ = BitVec.ofNat 32 us.length := by rw [hlength, zero_add]

/-- Settles O50: whole units are taken one after another (`build_wholeUnits`), and a frame that ends DONE has taken nothing
but whole units (`Parsed`). -/
theorem frameBuildsWholeUnits : Obligations.FrameBuildsWholeUnits := by
  intro s bs hn
  obtain ⟨ds, hds⟩ := Collected.feedBytes bs (openFrame s)
  obtain ⟨readings, hreadings, -, -⟩ := hds.trans (Collected.close _)
  refine ⟨_, readings, runProgram_build bs s, hreadings, ⟨fun hdone => ?split, ?done⟩, fun us hus hbs => ?values⟩
  case split => simpa [Splits] using (openFrame_parsed hn).feedBytes.of_done hdone
  case done =>
    rintro ⟨us, hus, rfl⟩
    obtain ⟨-, -, hdone, -⟩ := build_wholeUnits hus hn rfl
    exact hdone
  case values =>
    obtain ⟨cs, hcs, hdone, hcount, hcollected⟩ := build_wholeUnits hus hn (congrArg _ hbs)
    refine ⟨cs, hcs, hcount, ?_⟩
    rw [decodedString, if_pos hdone, hcollected.emitted hreadings, hcount]

/-- Settles O51: the encodings are whole units that decode to the codepoints, so O50 says what their
BUILD gives. -/
theorem encodedStreamDecodesBack : Obligations.EncodedStreamDecodesBack := by
  intro s cs hn hcs
  have hwhole : ∀ u ∈ cs.map encodeUnit, u.Whole :=
    List.forall_mem_map.mpr fun c hc => whole_of_value (decodeUnit_encodeUnit_of_le (hcs c hc))
  have hwire : (cs.flatMap fun c => (encodeUnit c).wire) = (cs.map encodeUnit).flatMap MultibyteUnit.wire :=
    (List.flatMap_map ..).symm
  obtain ⟨t, readings, hrun, hreadings, hdone, hvalues⟩ := frameBuildsWholeUnits s _ hn
  obtain ⟨ds, hds, hcount, hstring⟩ := hvalues _ hwhole hwire
  have hfstate := hdone.mpr ⟨_, hwhole, hwire⟩
  have hdecoded : cs.map Decoded.value = ds.map Decoded.value := by
    rw [← hds, List.map_map]
    exact List.map_congr_left fun c hc => (decodeUnit_encodeUnit_of_le (hcs c hc)).symm
  have hdecodedInj : Function.Injective Decoded.value := fun _ _ => Decoded.value.inj
  obtain rfl := List.map_injective_iff.mpr hdecodedInj hdecoded
  rw [decodedString, if_pos hfstate] at hstring
  rw [List.length_map] at hcount
  exact ⟨t, readings, hrun, hreadings, hfstate, hcount, congrArg DecodedString.chars (Option.some.inj hstring)⟩

end Sys2Proof.Machine
end
